-- ==== Sys2Proof/Word.lean ====
section
/-! DEFINITION. The word types of the block, named as 00_scope.md rule R5 names their widths. -/

namespace Sys2Proof

/-- A configuration word, a temperature operand or a period: `CFG_W = TEMP_W = PERIOD_W = 32` (R5). -/
abbrev Word := BitVec 32

/-- A command word `cmd`, 34 bits (R38). -/
abbrev CmdWord := BitVec 34

/-- A latch mask of `n` bits, bit `i` for band `i` (R6, R17). -/
abbrev Mask (n : Nat) := BitVec n

/-- A stored speed percentage, `SPD_W = 7` (R5, R13). -/
abbrev Percent := BitVec 7

/-- A length operand of LDCFG, `LEN_W = 8` (R5, R42). -/
abbrev Len := BitVec 8

/-- The `duty` field, `DUTY_W = PERIOD_W = 32` (R5, R44). -/
abbrev Duty := BitVec 32

end Sys2Proof
end

