-- ==== Sys2Proof/Syntax.lean ====
section
/-! DEFINITION. The commands: one constructor per row of spec/opcode_table.json. -/

namespace Sys2Proof

/-- A command (30_encoding.md rule R39). Every command carries the `arg` field of its word (R38); only
EVAL uses it (R40, R41). The operands of LDCFG come on the configuration operand bus (R42), not in the
word. -/
inductive Instr where
  /-- NOP, `op = 0b00`, `arg` ignored. -/
  | nop (arg : BitVec 32)
  /-- LDCFG, `op = 0b01`, `arg` ignored. -/
  | ldcfg (arg : BitVec 32)
  /-- INIT, `op = 0b10`, `arg` ignored. -/
  | init (arg : BitVec 32)
  /-- EVAL, `op = 0b11`, `arg` the temperature in millidegrees. -/
  | eval (arg : BitVec 32)
  deriving DecidableEq, Repr

end Sys2Proof
end

