-- ==== Sys2Proof/Decode.lean ====
section
/-! DEFINITION. The decoder and the encoder of the 34-bit command word (30_encoding.md rules R38 to R41). -/

namespace Sys2Proof

/-- `op = cmd[33:32]` (R38). -/
def CmdWord.op (w : CmdWord) : BitVec 2 := w.extractLsb' 32 2

/-- `arg = cmd[31:0]` (R38). -/
def CmdWord.arg (w : CmdWord) : BitVec 32 := w.extractLsb' 0 32

/-- The opcode map (R39). It is total: "every 34-bit word is one of the four commands", so nothing is left
to reject (R45). -/
def decode (w : CmdWord) : Instr :=
  if CmdWord.op w = 0b00#2 then .nop (CmdWord.arg w)
  else if CmdWord.op w = 0b01#2 then .ldcfg (CmdWord.arg w)
  else if CmdWord.op w = 0b10#2 then .init (CmdWord.arg w)
  else .eval (CmdWord.arg w)

/-- The opcode of a command (R39). -/
def Instr.opcode : Instr → BitVec 2
  | .nop _ => 0b00#2
  | .ldcfg _ => 0b01#2
  | .init _ => 0b10#2
  | .eval _ => 0b11#2

/-- The `arg` field of a command (R38). -/
def Instr.argField : Instr → BitVec 32
  | .nop arg => arg
  | .ldcfg arg => arg
  | .init arg => arg
  | .eval arg => arg

/-- The word `{op, arg}` (R38). -/
def joinFields (op : BitVec 2) (arg : BitVec 32) : CmdWord := (op ++ arg).cast (by decide)

/-- The word of a command (R38, R39). -/
def encode (i : Instr) : CmdWord := joinFields i.opcode i.argField

/-- The command word in the low `nbits` bits of `w`. The port has 34 lines (R37, R38), so bits a carrier of
whole bytes has above them are padding and reach no line (DESIGN CHOICE, log entry 11). -/
def commandWord (nbits w : Nat) : CmdWord := BitVec.ofNat 34 (w % 2 ^ nbits)

/-- The command this decoder reads from the bits `w`, numbered as spec/opcode_table.json numbers them. -/
def decodeTableWord (nbits w : Nat) : Option Instr := some (decode (commandWord nbits w))

end Sys2Proof
end

