-- ==== Sys2Proof/Config.lean ====
section
/-! DEFINITION. What an instance fixes (the parameters of 00_scope.md rule R5) and the free values. -/

namespace Sys2Proof

/-- The default of the parameter `N`, the number of bands: 8 for this hardware (R5, D5). Everything below
takes `N` as an argument `n` (92's table of open parameters; log entry 6). -/
abbrev Config.N : Nat := 8

/-- `TIER_W = ceil(log2(N+1))` (R5): the least width with `N + 1 <= 2^width`; 4 for `N = 8`. -/
def tierWidth (n : Nat) : Nat :=
  ((List.range (n + 1)).find? fun k => decide (n + 1 ≤ 2 ^ k)).getD n

/-- The parameters of R5 whose value is fixed, `NT` and `TIER_W` by `N`. -/
inductive FixedParam where
  | nt
  | tempW
  | cfgW
  | periodW
  | dutyW
  | spdW
  | tierW
  | lenW
  deriving DecidableEq, Repr

/-- The value of a fixed parameter for `n` bands (R5). -/
def FixedParam.value (n : Nat) : FixedParam → Nat
  | .nt => n + 1
  | .tempW => 32
  | .cfgW => 32
  | .periodW => 32
  | .dutyW => 32
  | .spdW => 7
  | .tierW => tierWidth n
  | .lenW => 8

/-- The parameter `CFG_DECODE : bits32 -> bits32` (R5, R30) as plain data: the two instances the spec names,
and `listed`, a function given by its pairs of raw word and decoded word; a word no pair names stands for
itself. Every total function on 32-bit words is a `listed` one, so the parameter is open to any function
(log entry 3). -/
inductive CfgDecode where
  | ident
  | bswap32
  | listed (pairs : List (Word × Word))
  deriving DecidableEq, Repr, Inhabited

/-- The parameter `DECODER` (R79, U1): `popcount` is this spec's block; `hsb1`, `cto` and `listed` are
decoders the source also accepts, equal to `popcount` on prefix masks. `listed` gives the tiers of gap
masks as pairs of the mask's unsigned value and the tier; every decoder with tiers in `0..N` is a `listed`
one (log entry 5). -/
inductive Decoder where
  | popcount
  | hsb1
  | cto
  | listed (gapTiers : List (Nat × Nat))
  deriving DecidableEq, Repr

/-- The parameters that stay open, fixed for the whole life of one instance of `n` bands (R5, R83, 92's
table of open parameters). -/
structure Params (n : Nat) where
  /-- `CFG_DECODE`. -/
  cfgDecode : CfgDecode
  /-- `INIT_MASK`. -/
  initMask : Mask n
  /-- `DECODER`. -/
  decoder : Decoder
  deriving DecidableEq, Repr

/-- FREE VALUE (log entry 3): the decoding strategy where nobody sets it; it has no default (R30). -/
opaque Config.openDecode : CfgDecode

/-- The parameters of `n` bands where nobody sets them: `CFG_DECODE` has no default and stays open (R30),
`INIT_MASK` is all-zero (R17), `DECODER` is `popcount` (R79). -/
def Params.default (n : Nat) : Params n :=
  { cfgDecode := Config.openDecode, initMask := 0, decoder := .popcount }

/-- FREE VALUE (log entry 7): `THR` while it holds no value (R16, R123), for the given draw. -/
opaque Config.unloadedThr : (n : Nat) → Nat → Vector Word n

/-- FREE VALUE (log entry 7): `HYS` while it holds no value (R16, R123), for the given draw. -/
opaque Config.unloadedHys : (n : Nat) → Nat → Vector Word n

/-- FREE VALUE (log entry 7): `SPD` while it holds no value (R16, R123), for the given draw. -/
opaque Config.unloadedSpd : (n : Nat) → Nat → Vector Percent (n + 1)

/-- FREE VALUE (log entry 7): `PERIOD` while it holds no value (R16, R123), for the given draw. -/
opaque Config.unloadedPeriod : (n : Nat) → Nat → Word

/-- FREE VALUE (log entry 7): `DPP` while it holds no value (R16, R123), for the given draw. -/
opaque Config.unloadedDpp : (n : Nat) → Nat → Word

/-- FREE VALUE (log entry 14): what the assembler leaves in slot `k` of an array whose list is shorter than
the bus (R47: "leaves the remaining slots unspecified"). -/
opaque Config.unspecifiedSlot : Nat → Word

end Sys2Proof
end

