-- ==== Sys2Proof/Machine/State.lean ====
section
/-! DEFINITION. The state of one block (10_state.md), its ports (30_encoding.md rules R37, R42, R44), the
host's pending moves, the ways a step can stop, and the reset state (70_reset_and_hazards.md rule R123). -/

namespace Sys2Proof.Machine

/-- The status of a response: the closed set of seven codes of R106 (R45). -/
inductive Status where
  | ok
  | invalidLength
  | nonMonotonic
  | invalidHysteresis
  | invalidSpeed
  | notConfigured
  | locked
  deriving DecidableEq, Repr

/-- The response field `tier` (R44): unsigned, in a field whose width depends on `N` (R5, TIER_W). -/
structure TierField where
  width : Nat
  bits  : BitVec width
  deriving DecidableEq, Repr

/-- The number in a tier field. -/
abbrev TierField.toNat (f : TierField) : Nat := f.bits.toNat

/-- What only an EVAL that completes returns beside the status (R44, R76). -/
structure Evaluation where
  duty  : Duty
  tier  : TierField
  speed : Percent
  deriving DecidableEq, Repr

/-- A response (R44): the status, and the result of an EVAL that completed; every other response carries
no result. -/
structure Response where
  status : Status
  result : Option Evaluation
  deriving DecidableEq, Repr

/-- The configuration table, the document's CurveConfig (R10): `THR`, `HYS` (R11, R12), `SPD` with its idle
entry (R13), `PERIOD` (R14), `DPP` (R15), for `n` bands. -/
structure Table (n : Nat) where
  thr    : Vector Word n
  hys    : Vector Word n
  spd    : Vector Percent (n + 1)
  period : Word
  dpp    : Word
  deriving DecidableEq, Repr

/-- The configuration operand bus (R42), for `n` bands. -/
structure Bus (n : Nat) where
  lenThr : Len
  lenHys : Len
  lenSpd : Len
  thrRaw : Vector Word n
  hysRaw : Vector Word n
  spdRaw : Vector Word (n + 1)
  period : Word
  deriving DecidableEq, Repr

/-- What the host is assumed never to do (R137, last column); the spec says of none what the block then
does (U10). -/
inductive Breach where
  /-- A command is presented before the previous response (R129). -/
  | earlyCommand
  /-- The operand bus changes during the LDCFG step (R131). -/
  | busChanged
  /-- `rst` is asserted during a command (R112, R124). -/
  | resetDuringCommand
  deriving DecidableEq, Repr

/-- One move of the host to an instance of `n` bands (R37, R137). -/
inductive HostMove (n : Nat) where
  /-- A command word on the command port, with the operand bus as it then stands. -/
  | command (word : CmdWord) (bus : Bus n)
  /-- A reset mark: `rst` at a command boundary (R112). -/
  | reset
  /-- A move the spec has no meaning for. -/
  | breach (b : Breach)
  deriving DecidableEq, Repr

/-- Why a step faults. -/
inductive Fault where
  /-- The host broke R129, R131 or R112. Raised by `step` alone, on a `HostMove.breach`; no command raises
  it. Safe: 93 U10 lets a model treat each breach as a fault, and a claim then says nothing of what real
  hardware does (log entry 10). -/
  | hostBreach (b : Breach)
  deriving DecidableEq, Repr

/-- Why a step is refused by the model. (A refusal of the SPEC, R105, is not one of these: it is a next
state whose response carries the status.) -/
inductive Refusal where
  /-- The instruction has no meaning in the model yet. Raised by a rejected arm of `exec`; no arm is
  rejected now. Safe. -/
  | notModelled (mnemonic : String)
  deriving DecidableEq, Repr

/-- An instance of `n` bands: the architectural state of R10, then what the model holds beside it
(INVENTORY.md, State). -/
structure Block (n : Nat) where
  /-- `CFG_VALID` (R19). -/
  cfgValid : Bool
  /-- The configuration table `THR`, `HYS`, `SPD`, `PERIOD`, `DPP` (R11 to R15). -/
  table : Table n
  /-- `MASK`, the latch bits (R17). -/
  mask : Mask n
  /-- The instance's parameters; no step changes them (R5, R83; log entry 3). -/
  params : Params n
  /-- The configuration operand bus as last presented (R42; log entry 9). -/
  bus : Bus n
  /-- The host's pending moves, oldest first (R137, R138; log entry 1). -/
  host : List (HostMove n)
  /-- The response port after the last step (R44; log entry 2). -/
  response : Option Response
  /-- How many unspecified tables have been drawn (log entry 8). -/
  draws : Nat
  deriving DecidableEq, Repr

/-- The state: the parameter `N`, which no step changes (R5, U4; log entry 6), and the instance of that many
bands. -/
structure State where
  bands : Nat
  block : Block bands
  deriving DecidableEq, Repr

/-- The state that is the instance `b`. -/
abbrev State.of {n : Nat} (b : Block n) : State := { bands := n, block := b }

/-- The table registers while they hold no value: free values for the given draw (R16, R123). -/
def unloadedTable (n draw : Nat) : Table n where
  thr    := Config.unloadedThr n draw
  hys    := Config.unloadedHys n draw
  spd    := Config.unloadedSpd n draw
  period := Config.unloadedPeriod n draw
  dpp    := Config.unloadedDpp n draw

/-- The operand bus before the host has presented anything on it (DESIGN CHOICE, log entry 9). -/
def idleBus (n : Nat) : Bus n where
  lenThr := 0
  lenHys := 0
  lenSpd := 0
  thrRaw := Vector.replicate n 0
  hysRaw := Vector.replicate n 0
  spdRaw := Vector.replicate (n + 1) 0
  period := 0

/-- An instance with parameters `p` right after power-on (R123, R124): `CFG_VALID = 0`,
`MASK = INIT_MASK`, the table without value, no response pending. -/
def Block.resetWith {n : Nat} (p : Params n) : Block n where
  cfgValid := false
  table    := unloadedTable n 0
  mask     := p.initMask
  params   := p
  bus      := idleBus n
  host     := []
  response := none
  draws    := 1

/-- The state right after reset (R123), with the parameters nobody has set: 8 bands. -/
def State.reset : State := .of (Block.resetWith (Params.default Config.N))

end Sys2Proof.Machine
end

