-- ==== Sys2Proof/Machine/Operands.lean ====
section
/-! DEFINITION. Numbers and operands: the arithmetic primitives of 00_scope.md rule R7, `CFG_DECODE`
(20_memory.md rule R30), the decoded operands of LDCFG (30_encoding.md rule R43) with the checks on them
(40_ldcfg.md rules R57 to R60), and the operand of EVAL (41_eval.md rule R67). -/

namespace Sys2Proof.Machine

/-- `uint(v)` (R7). -/
abbrev uint {w : Nat} (v : BitVec w) : Nat := v.toNat

/-- `sint(v)`, the two's-complement value (R7, G1). -/
abbrev sint {w : Nat} (v : BitVec w) : Int := v.toInt

/-- `tdiv(a, b)` for `b > 0`: division toward zero (R7). -/
def tdiv (a b : Int) : Int := if 0 ≤ a then a.fdiv b else -((-a).fdiv b)

/-- `fdiv(a, b)` for `a >= 0`, `b > 0`: the floor of the quotient (R7). -/
def fdiv (a b : Nat) : Nat := a / b

/-- `bswap32(v) = {v[7:0], v[15:8], v[23:16], v[31:24]}` (R7, G3). -/
def bswap32 (v : Word) : Word :=
  v.extractLsb' 0 8 ++ v.extractLsb' 8 8 ++ v.extractLsb' 16 8 ++ v.extractLsb' 24 8

/-- `CFG_DECODE(w)` for the strategy in force: a total function of the word alone (R30). -/
def cfgDecode : CfgDecode → Word → Word
  | .ident, w => w
  | .bswap32, w => bswap32 w
  | .listed pairs, w => (pairs.lookup w).getD w

/-- `t = tdiv(sint(arg), 1000)`: whole degrees, toward zero (R67). -/
def wholeDegrees (arg : Word) : Int := tdiv (sint arg) 1000

variable {n : Nat}

/-- `thr_i = sint(CFG_DECODE(thr_raw[i]))` (R43, R56), under the strategy `d`. -/
def Bus.thr (d : CfgDecode) (b : Bus n) (i : Fin n) : Int := sint (cfgDecode d b.thrRaw[i])

/-- `hys_i = sint(CFG_DECODE(hys_raw[i]))` (R43, R56). -/
def Bus.hys (d : CfgDecode) (b : Bus n) (i : Fin n) : Int := sint (cfgDecode d b.hysRaw[i])

/-- `spd_k = uint(CFG_DECODE(spd_raw[k]))` (R43, R56). -/
def Bus.spd (d : CfgDecode) (b : Bus n) (k : Fin (n + 1)) : Nat := uint (cfgDecode d b.spdRaw[k])

/-- The lengths LDCFG asks for: `N`, `N` and `N + 1` (R57, C1). -/
abbrev Bus.LengthsRight (b : Bus n) : Prop :=
  uint b.lenThr = n ∧ uint b.lenHys = n ∧ uint b.lenSpd = n + 1

/-- Some neighbouring pair of thresholds decreases (R58). -/
abbrev Bus.Decreasing (d : CfgDecode) (b : Bus n) : Prop :=
  ∃ i j : Fin n, j.val = i.val + 1 ∧ b.thr d i > b.thr d j

/-- Some hysteresis threshold is above its threshold (R59). -/
abbrev Bus.HysteresisAbove (d : CfgDecode) (b : Bus n) : Prop :=
  ∃ i : Fin n, b.hys d i > b.thr d i

/-- Some speed is above 100 percent (R60). -/
abbrev Bus.SpeedAbove (d : CfgDecode) (b : Bus n) : Prop :=
  ∃ k : Fin (n + 1), b.spd d k > 100

/-- The status of the first check that fails, in the order length, monotonicity, hysteresis, speed, and
none if all pass (R54, R61). -/
def Bus.configError (d : CfgDecode) (b : Bus n) : Option Status :=
  if ¬ b.LengthsRight then some .invalidLength
  else if b.Decreasing d then some .nonMonotonic
  else if b.HysteresisAbove d then some .invalidHysteresis
  else if b.SpeedAbove d then some .invalidSpeed
  else none

/-- `dpp = fdiv(p, 100)` with `p = uint(period)` (R63); `period` is not decoded (R29). -/
def Bus.dpp (b : Bus n) : Nat := fdiv (uint b.period) 100

/-- The table LDCFG commits (R64): the decoded words, the low 7 bits of the decoded speeds, the period as
presented, and the precomputed quotient. -/
def Bus.toTable (d : CfgDecode) (b : Bus n) : Table n where
  thr    := Vector.ofFn fun i => cfgDecode d b.thrRaw[i]
  hys    := Vector.ofFn fun i => cfgDecode d b.hysRaw[i]
  spd    := Vector.ofFn fun k => (cfgDecode d b.spdRaw[k]).extractLsb' 0 7
  period := b.period
  dpp    := BitVec.ofNat 32 b.dpp

end Sys2Proof.Machine
end

