-- ==== Sys2Proof/Machine/Flags.lean ====
section
/-! DEFINITION. The latch bits: the comparisons and the latch rule (41_eval.md rules R69, R70), counting
and the decoders (R73, R79), prefix masks (00_scope.md rule R7). -/

namespace Sys2Proof.Machine

variable {n : Nat}

/-- `popcount(v)`: the number of bits equal to 1 (R7, G2). -/
def popcount (m : Mask n) : Nat := (List.finRange n).countP fun i => m[i]

/-- `prefix(k)`: bits `0 .. k-1` are 1, the others 0 (R7). -/
def prefixMask (n k : Nat) : Mask n := BitVec.ofFnLE fun i : Fin n => decide (i.val < k)

/-- `isprefix(m)`: there is no `i < j` with `m[i] = 0` and `m[j] = 1` (R7). -/
abbrev IsPrefix (m : Mask n) : Prop := ∀ i j : Fin n, i < j → m[j] = true → m[i] = true

/-- `hsb1(m)`: one plus the index of the highest set bit, 0 for the all-zero mask (R79). -/
def hsb1 (m : Mask n) : Nat :=
  (List.finRange n).foldl (fun acc i => if m[i] then i.val + 1 else acc) 0

/-- `cto(m)`: the number of consecutive set bits starting at bit 0 (R79). -/
def cto (m : Mask n) : Nat := ((List.finRange n).takeWhile fun i => m[i]).length

/-- The tier a decoder counts on a mask (R73, R79). `listed` is any decoder the source accepts: `popcount` on
prefix masks, the tier listed for it, at most `n`, on a gap mask (U1; log entry 5). -/
def Decoder.count (d : Decoder) (m : Mask n) : Nat :=
  match d with
  | .popcount => popcount m
  | .hsb1 => hsb1 m
  | .cto => cto m
  | .listed gapTiers =>
    if IsPrefix m then popcount m else min ((gapTiers.lookup m.toNat).getD (popcount m)) n

theorem popcount_le (m : Mask n) : popcount m ≤ n := by
  simpa [popcount] using List.countP_le_length (p := fun i : Fin n => m[i]) (l := List.finRange n)

theorem cto_le (m : Mask n) : cto m ≤ n := by
  simpa [cto] using (List.takeWhile_sublist (fun i : Fin n => m[i]) (l := List.finRange n)).length_le

theorem hsb1_le (m : Mask n) : hsb1 m ≤ n := by
  have key : ∀ (l : List (Fin n)) (a : Nat), a ≤ n →
      l.foldl (fun acc i => if m[i] then i.val + 1 else acc) a ≤ n := by
    intro l
    induction l with
    | nil => intro a ha; simpa using ha
    | cons i l ih =>
      intro a ha
      simp only [List.foldl_cons]
      apply ih
      split
      · exact i.isLt
      · exact ha
  exact key _ 0 (Nat.zero_le n)

theorem Decoder.count_le (d : Decoder) (m : Mask n) : Decoder.count d m ≤ n := by
  cases d with
  | popcount => exact popcount_le m
  | hsb1 => exact hsb1_le m
  | cto => exact cto_le m
  | listed gapTiers =>
    simp only [Decoder.count]
    split
    · exact popcount_le m
    · exact Nat.min_le_right _ _

/-- The tier as an index of `SPD`, always in range (R26, R74). -/
def Decoder.tier (d : Decoder) (m : Mask n) : Fin (n + 1) :=
  ⟨Decoder.count d m, Nat.lt_succ_of_le (Decoder.count_le d m)⟩

/-- `rising_i = (t >= sint(THR[i]))` (R69). -/
def Table.rising (c : Table n) (t : Int) (i : Fin n) : Bool := decide (t ≥ sint c.thr[i])

/-- `falling_i = (t >= sint(HYS[i]))` (R69). -/
def Table.falling (c : Table n) (t : Int) (i : Fin n) : Bool := decide (t ≥ sint c.hys[i])

/-- `newMask_i = rising_i OR (falling_i AND oldMask_i)` for every band (R70). -/
def Table.newMask (c : Table n) (t : Int) (old : Mask n) : Mask n :=
  BitVec.ofFnLE fun i => c.rising t i || (c.falling t i && old[i])

end Sys2Proof.Machine
end

