-- ==== Sys2Proof/Machine/Ops.lean ====
section
/-! DEFINITION. The named operations on an instance: responding, the refusal (60_exceptions.md rule R105),
the writes of each command, and what the host's moves do to the ports and at reset. -/

namespace Sys2Proof.Machine

variable {n : Nat}

/-- The numeric code of a status (R106). -/
def Status.code : Status → BitVec 4
  | .ok => 0
  | .invalidLength => 1
  | .nonMonotonic => 2
  | .invalidHysteresis => 3
  | .invalidSpeed => 4
  | .notConfigured => 5
  | .locked => 6

/-- `refuse <S>` (R105): the command ends, no architectural state is written, the response carries the
status and no other field has a value. This is the block's one exception mechanism: nothing is saved, no
mode changes, control goes nowhere (R115), so there is no return from it either (R117). -/
def Block.refuse (s : Block n) (st : Status) : Block n :=
  { s with response := some { status := st, result := none } }

/-- `respond(OK)` of a command that produces no result (R44, R85). -/
def Block.respondOk (s : Block n) : Block n :=
  { s with response := some { status := .ok, result := none } }

/-- `respond(OK, duty, tier, speed)` (R76). -/
def Block.respondEval (s : Block n) (e : Evaluation) : Block n :=
  { s with response := some { status := .ok, result := some e } }

/-- `MASK <- m`: all `N` bits (R71, R83). -/
def Block.writeMask (s : Block n) (m : Mask n) : Block n := { s with mask := m }

/-- The commit of LDCFG: the whole table and `CFG_VALID <- 1`, together (R64). -/
def Block.commit (s : Block n) (c : Table n) : Block n := { s with table := c, cfgValid := true }

/-- The host presents a command: the move leaves the queue and its operand bus stands on the bus (R37). -/
def Block.present (s : Block n) (bus : Bus n) (rest : List (HostMove n)) : Block n :=
  { s with host := rest, bus := bus }

/-- No command is presented: the block waits, and returns no response (R125, R137). -/
def Block.wait (s : Block n) : Block n := { s with response := none }

/-- A reset mark (R112, R123): `CFG_VALID = 0`, `MASK = INIT_MASK`, the table loses its value (a fresh
draw), and there is no response. The parameters and the bus are the host's and the instance's. -/
def Block.applyReset (s : Block n) (rest : List (HostMove n)) : Block n :=
  { s with
    cfgValid := false
    mask := s.params.initMask
    table := unloadedTable n s.draws
    draws := s.draws + 1
    response := none
    host := rest }

end Sys2Proof.Machine
end

