-- ==== Sys2Proof/Machine/Configuration.lean ====
section
/-! DEFINITION. The configuration family: LDCFG (40_ldcfg.md). -/

namespace Sys2Proof.Machine

/-- LDCFG in full (R65): the mode check (R55), then the first failing check of R57 to R60, then the commit
(R64). Every branch but the last writes nothing but the response (R62). -/
def Block.loadConfig {n : Nat} (s : Block n) : Block n :=
  if s.cfgValid then s.refuse .locked
  else
    match s.bus.configError s.params.cfgDecode with
    | some e => s.refuse e
    | none => (s.commit (s.bus.toTable s.params.cfgDecode)).respondOk

/-- The meaning of LDCFG (R53 to R66); `arg` is ignored (R41). -/
def execLdcfg (_arg : BitVec 32) (s : State) : Host.Outcome State Fault Refusal :=
  .next { s with block := s.block.loadConfig }

end Sys2Proof.Machine
end

