-- ==== Sys2Proof/Machine/Evaluation.lean ====
section
/-! DEFINITION. The evaluation family: EVAL (41_eval.md). -/

namespace Sys2Proof.Machine

variable {n : Nat}

/-- `speed = uint(SPD[tier])` (R74). -/
def Table.speed (c : Table n) (tier : Fin (n + 1)) : Nat := uint c.spd[tier]

/-- `duty = speed * uint(DPP)` (R75), an exact product. -/
def Table.duty (c : Table n) (tier : Fin (n + 1)) : Nat := c.speed tier * uint c.dpp

/-- The result fields for a tier (R44, R73 to R76), each narrowed to its width; under R16 nothing is lost
(R92; log entry 13 for states that break R16). -/
def Table.evaluation (c : Table n) (tier : Fin (n + 1)) : Evaluation where
  duty  := BitVec.ofNat 32 (c.duty tier)
  tier  := { width := tierWidth n, bits := BitVec.ofNat (tierWidth n) tier.val }
  speed := c.spd[tier]

/-- EVAL in full (R77): the mode check (R68), the latch update (R67 to R71), then tier, speed and duty of
the new mask (R73 to R76). -/
def Block.evaluate (s : Block n) (arg : Word) : Block n :=
  if s.cfgValid then
    let m := s.table.newMask (wholeDegrees arg) s.mask
    (s.writeMask m).respondEval (s.table.evaluation (Decoder.tier s.params.decoder m))
  else s.refuse .notConfigured

/-- The meaning of EVAL (R67 to R82), at the temperature `arg`. -/
def execEval (arg : BitVec 32) (s : State) : Host.Outcome State Fault Refusal :=
  .next { s with block := s.block.evaluate arg }

end Sys2Proof.Machine
end

