-- ==== Sys2Proof/Machine/Lifecycle.lean ====
section
/-! DEFINITION. The system family: INIT and NOP (42_init_nop.md). -/

namespace Sys2Proof.Machine

/-- The meaning of INIT (R83): `MASK <- INIT_MASK`, in either mode (R84); `arg` is ignored (R41). -/
def execInit (_arg : BitVec 32) (s : State) : Host.Outcome State Fault Refusal :=
  .next { s with block := (s.block.writeMask s.block.params.initMask).respondOk }

/-- The meaning of NOP (R85): it reads no state and writes none; `arg` is ignored (R41). -/
def execNop (_arg : BitVec 32) (s : State) : Host.Outcome State Fault Refusal :=
  .next { s with block := s.block.respondOk }

end Sys2Proof.Machine
end

