-- ==== Sys2Proof/Machine/Dispatch.lean ====
section
/-! DEFINITION. One arm per command: what executing it does. -/

namespace Sys2Proof.Machine

def exec (i : Instr) (s : State) : Host.Outcome State Fault Refusal :=
  match i with
  | .nop arg => Sys2Proof.Machine.execNop arg s
  | .ldcfg arg => Sys2Proof.Machine.execLdcfg arg s
  | .init arg => Sys2Proof.Machine.execInit arg s
  | .eval arg => Sys2Proof.Machine.execEval arg s

end Sys2Proof.Machine
end

