-- ==== Sys2Proof/Machine/Step.lean ====
section
/-! DEFINITION. One step: the host's next move, carried out to completion (00_scope.md rule R9). -/

namespace Sys2Proof.Machine

/-- A step. The block does not fetch (R22): it takes the host's next move. With none it waits (R125); a
command is decoded and executed (R35); a reset mark resets (R112); a breach faults (U10). -/
def step (s : State) : Host.Outcome State Fault Refusal :=
  match s.block.host with
  | [] => .next { s with block := s.block.wait }
  | .command w bus :: rest => exec (decode w) { s with block := s.block.present bus rest }
  | .reset :: rest => .next { s with block := s.block.applyReset rest }
  | .breach b :: _ => .fault (.hostBreach b)

/-- `s` with the command of `w` as the host's next move, the operand bus as it stands (log entry 11). -/
def State.withFetchWord (s : State) (nbits w : Nat) : State :=
  { s with block :=
    { s.block with host := .command (commandWord nbits w) s.block.bus :: s.block.host } }

end Sys2Proof.Machine
end

