-- ==== Sys2Proof/Machine/Run.lean ====
section
/-! DEFINITION. A run and its observation (70_reset_and_hazards.md rule R138). -/

namespace Sys2Proof.Machine

/-- `k` steps, with the responses collected in order (R35); it stops at the first fault. -/
def run : Nat → State → Host.Outcome (List Response × State) Fault Refusal
  | 0, s => .next ([], s)
  | k + 1, s =>
    match step s with
    | .fault f => .fault f
    | .refused r => .refused r
    | .next s' =>
      match run k s' with
      | .fault f => .fault f
      | .refused r => .refused r
      | .next (rs, t) => .next (s'.block.response.toList ++ rs, t)

/-- A run of a stream from the instance `b` (R138): the stream is put in the place of the pending moves and
carried out to its last element. -/
def runMoves {n : Nat} (ms : List (HostMove n)) (b : Block n) :
    Host.Outcome (List Response × State) Fault Refusal :=
  run ms.length (.of { b with host := ms })

/-- What R138 lets an observer see of a run: the responses, in order, and of the final state `CFG_VALID`,
`MASK` and, if `CFG_VALID = 1`, the table. -/
structure Observation where
  responses : List Response
  bands     : Nat
  cfgValid  : Bool
  mask      : Mask bands
  table     : Option (Table bands)
  deriving DecidableEq, Repr

/-- The observation of a run with these responses and this final state (R138). -/
def State.observation (s : State) (rs : List Response) : Observation where
  responses := rs
  bands     := s.bands
  cfgValid  := s.block.cfgValid
  mask      := s.block.mask
  table     := if s.block.cfgValid then some s.block.table else none

variable {n : Nat}

/-- The host presents the command `i` with the bus `b`. -/
def HostMove.ofInstr (i : Instr) (b : Bus n) : HostMove n := .command (encode i) b

/-- A move that is no breach: a command or a reset mark (R138). -/
def HostMove.allowed : HostMove n → Bool
  | .command _ _ => true
  | .reset => true
  | .breach _ => false

/-- A move that is a command. -/
def HostMove.isCommand : HostMove n → Bool
  | .command _ _ => true
  | .reset => false
  | .breach _ => false

end Sys2Proof.Machine
end

