-- ==== Sys2Proof/Source.lean ====
section
/-! DEFINITION. The lines of a command stream in the textual form of 30_encoding.md rules R47 and R48, as
data; Machine/Parser.lean reads them from characters and Machine/Assembler.lean assembles them. -/

namespace Sys2Proof

/-- The operand block of a textual LDCFG (R47): the three lengths, the decoded integer values in index
order, and the period. -/
structure ConfigText where
  lenThr : Nat
  lenHys : Nat
  lenSpd : Nat
  thr    : List Int
  hys    : List Int
  spd    : List Int
  period : Nat
  deriving DecidableEq, Repr

/-- A `.param NAME=value` directive (R47), for each parameter of R5. -/
inductive Setting where
  /-- `N`. -/
  | bands (n : Nat)
  /-- A parameter with a fixed value. -/
  | fixed (p : FixedParam) (value : Nat)
  | cfgDecode (d : CfgDecode)
  | initMask (m : Nat)
  | decoder (d : Decoder)
  deriving DecidableEq, Repr

/-- One line of a command stream (R47, R48). -/
inductive Line where
  | nop
  | init
  /-- `EVAL <T>`, `T` in millidegrees. -/
  | eval (T : Int)
  /-- The pseudo-instruction `EVALC <d>`, `d` in whole degrees (R48). -/
  | evalc (d : Int)
  | ldcfg (c : ConfigText)
  /-- The directive `.reset`: the host asserts `rst` here. -/
  | reset
  | param (p : Setting)
  deriving DecidableEq, Repr

end Sys2Proof
end

