-- ==== Sys2Proof/WellFormed.lean ====
section
/-! DEFINITION. Which commands and which lines of a command stream are well formed. -/

namespace Sys2Proof

/-- Every command is well formed: "There is no reserved, illegal, hint or custom encoding in the command
word" and all values of `arg` are legal (R45, R40, R41; log entry 19). -/
def Instr.wellFormed : Instr → Bool
  | .nop _ => true
  | .ldcfg _ => true
  | .init _ => true
  | .eval _ => true

/-- A value a 32-bit two's-complement word can hold (R7). -/
def fitsSigned (v : Int) : Bool := decide (-2147483648 ≤ v ∧ v ≤ 2147483647)

/-- A value a 32-bit unsigned word can hold (R7). -/
def fitsUnsigned (v : Int) : Bool := decide (0 ≤ v ∧ v < 4294967296)

/-- A list fits its array of `slots` slots: it fills it, or it is shorter, which is possible only when the
length operand `len` is not the one the array needs (R47). R47 says nothing of a list longer than the array
has slots: refusing the line, and not dropping its last values, is the model's own (DESIGN CHOICE, log
entry 14). -/
def ConfigText.listFits (len slots given : Nat) : Bool :=
  decide (given = slots ∨ (given < slots ∧ len ≠ slots))

/-- The checks on a textual operand block for `n` bands (R42, R47): every field within the width the bus
gives it. -/
def ConfigText.wellFormed (n : Nat) (c : ConfigText) : Bool :=
  decide (c.lenThr < 256 ∧ c.lenHys < 256 ∧ c.lenSpd < 256) &&
  ConfigText.listFits c.lenThr n c.thr.length &&
  ConfigText.listFits c.lenHys n c.hys.length &&
  ConfigText.listFits c.lenSpd (n + 1) c.spd.length &&
  c.thr.all fitsSigned && c.hys.all fitsSigned && c.spd.all fitsUnsigned &&
  decide (c.period < 4294967296)

/-- The checks on a parameter directive in a program for `n` bands: `N >= 1` (D5), a mask of `n` bits,
that is a number below `2^n`, however many digits it was written with (log entry 14), and a fixed parameter at
its value (R5). R47 does not say what another value for a fixed parameter does: the line is
ill-formed (DESIGN CHOICE, log entry 14). -/
def Setting.wellFormed (n : Nat) : Setting → Bool
  | .bands k => decide (1 ≤ k)
  | .fixed p value => decide (value = p.value n)
  | .cfgDecode _ => true
  | .initMask m => decide (m < 2 ^ n)
  | .decoder _ => true

/-- The checks on a line of a program for `n` bands (R47, R48): the ranges of `<T>`, `<d>` and the operand
block. -/
def Line.wellFormed (n : Nat) : Line → Bool
  | .nop => true
  | .init => true
  | .eval T => fitsSigned T
  | .evalc d => decide (-2147483 ≤ d ∧ d ≤ 2147483)
  | .ldcfg c => c.wellFormed n
  | .reset => true
  | .param p => p.wellFormed n

end Sys2Proof
end

