-- ==== Sys2Proof/Machine/Assembler.lean ====
section
/-! DEFINITION. Assembling the lines of a command stream (30_encoding.md rules R47, R48) into the host's
moves and the state a program starts from. -/

namespace Sys2Proof.Machine

/-- `CFG_DECODE` is a bijection, as the assembler requires (R47): both named instances are, and a listed
function is when every word it names is the image of one. -/
def CfgDecode.invertible : CfgDecode → Bool
  | .ident => true
  | .bswap32 => true
  | .listed pairs =>
    pairs.all fun p => pairs.any fun q => decide (cfgDecode (.listed pairs) q.1 = p.1)

/-- "the inverse of the `CFG_DECODE` in force" (R47): the raw word that decodes to `w`. -/
def cfgEncode : CfgDecode → Word → Word
  | .ident, w => w
  | .bswap32, w => bswap32 w
  | .listed pairs, w =>
    match pairs.find? fun q => decide (cfgDecode (.listed pairs) q.1 = w) with
    | some q => q.1
    | none => w

/-- The raw word whose decoded word is the 32-bit pattern of `v` (R47). -/
def rawWord (d : CfgDecode) (v : Int) : Word := cfgEncode d (BitVec.ofInt 32 v)

/-- The raw array of `k` slots for the decoded values `vs`. Slots beyond a shorter list are unspecified
(R47): free values, numbered from `base`. -/
def rawArray (d : CfgDecode) (base k : Nat) (vs : List Int) : Vector Word k :=
  Vector.ofFn fun i : Fin k =>
    match vs[i.val]? with
    | some v => rawWord d v
    | none => Config.unspecifiedSlot (base + i.val)

/-- The operand bus of a textual LDCFG for `n` bands (R42, R47). -/
def ConfigText.toBus (n : Nat) (d : CfgDecode) (c : ConfigText) : Bus n where
  lenThr := BitVec.ofNat 8 c.lenThr
  lenHys := BitVec.ofNat 8 c.lenHys
  lenSpd := BitVec.ofNat 8 c.lenSpd
  thrRaw := rawArray d 0 n c.thr
  hysRaw := rawArray d n n c.hys
  spdRaw := rawArray d (2 * n) (n + 1) c.spd
  period := BitVec.ofNat 32 c.period

/-- The command of a line that is one, with zero in an ignored `arg` (R41, R47); `EVALC d` is
`EVAL (d * 1000)` (R48). -/
def Line.toInstr : Line → Option Instr
  | .nop => some (.nop 0)
  | .init => some (.init 0)
  | .eval T => some (.eval (BitVec.ofInt 32 T))
  | .evalc d => some (.eval (BitVec.ofInt 32 (d * 1000)))
  | .ldcfg _ => some (.ldcfg 0)
  | .reset => none
  | .param _ => none

/-- The bus that stands with a line's command: an LDCFG's operands; any other command ignores it (R37). -/
def Line.toBus (n : Nat) (d : CfgDecode) : Line → Bus n
  | .ldcfg c => ConfigText.toBus n d c
  | .nop => idleBus n
  | .init => idleBus n
  | .eval _ => idleBus n
  | .evalc _ => idleBus n
  | .reset => idleBus n
  | .param _ => idleBus n

/-- A line that needs the inverse of `CFG_DECODE` (R47). -/
def Line.needsInverse : Line → Bool
  | .ldcfg _ => true
  | .nop => false
  | .init => false
  | .eval _ => false
  | .evalc _ => false
  | .reset => false
  | .param _ => false

/-- The host's moves for one line of a program for `n` bands: a command, a reset mark, or none for a
`.param` (R47). It answers none for a line that is not well formed, and for an LDCFG under a strategy that
is no bijection. -/
def Line.assemble (n : Nat) (d : CfgDecode) (l : Line) : Option (List (HostMove n)) :=
  if ¬ l.wellFormed n then none
  else if Line.needsInverse l && !CfgDecode.invertible d then none
  else
    match Line.toInstr l with
    | some i => some [HostMove.ofInstr i (Line.toBus n d l)]
    | none => if l = .reset then some [.reset] else some []

/-- The number of bands a program runs with: its `.param N=...`, the last one if there are several (log
entry 14), and 8 without one (R5, R47). -/
def programBands (ls : List Line) : Nat :=
  ls.foldl (fun n l => match l with
    | .param (.bands k) => k
    | _ => n) Config.N

/-- What a `.param` directive fixes for an instance of `n` bands (R47); a fixed parameter is what it is. -/
def Setting.apply {n : Nat} (p : Params n) : Setting → Params n
  | .bands _ => p
  | .fixed _ _ => p
  | .cfgDecode d => { p with cfgDecode := d }
  | .initMask m => { p with initMask := BitVec.ofNat n m }
  | .decoder d => { p with decoder := d }

/-- The parameters a program runs under: its `.param` directives over the defaults (R5, R47). -/
def programParams (n : Nat) (ls : List Line) : Params n :=
  ls.foldl (fun p l => match l with
    | .param x => Setting.apply p x
    | _ => p) (Params.default n)

/-- The moves of a program's lines, in order. -/
def assembleLines (n : Nat) (d : CfgDecode) : List Line → Option (List (HostMove n))
  | [] => some []
  | l :: ls =>
    match Line.assemble n d l, assembleLines n d ls with
    | some ms, some rest => some (ms ++ rest)
    | _, _ => none

/-- The state a program for `n` bands under the parameters `p` starts from: the reset state, with its stream
as the host's pending moves (R138, 95_test_vectors.md section 3). -/
def startWith {n : Nat} (p : Params n) (ls : List Line) : Option State :=
  match assembleLines n p.cfgDecode ls with
  | some ms => some (.of { Block.resetWith p with host := ms })
  | none => none

/-- The state a program starts from, under the parameters its directives fix (R47). -/
def programStart (ls : List Line) : Option State :=
  startWith (programParams (programBands ls) ls) ls

end Sys2Proof.Machine
end

