-- ==== Sys2Proof/Machine/Instances.lean ====
section
/-! DEFINITION. Several instances (60_exceptions.md rule R122): each its own state, nothing shared. -/

namespace Sys2Proof.Machine

/-- Any number of block instances, each with its complete own copy of the state and of its ports. -/
abbrev Instances := List State

/-- Instance `j` makes a step; an index that names no instance changes nothing. A breach by the host of
instance `j` makes the outcome of the whole list that fault, although the other instances are not affected by
it (R122): 93 U10 speaks of one block, and stopping the list is the model's own (DESIGN CHOICE, log entry 17). -/
def Instances.stepAt (sys : Instances) (j : Nat) : Host.Outcome Instances Fault Refusal :=
  match sys[j]? with
  | none => .next sys
  | some s =>
    match step s with
    | .next t => .next (sys.set j t)
    | .fault f => .fault f
    | .refused r => .refused r

end Sys2Proof.Machine
end

