-- ==== Sys2Proof/Machine/Parser.lean ====
section
/-! DEFINITION. Reading a command stream from its characters (30_encoding.md rules R47, R48). Names,
brackets and numbers are the rule's own; what the rule leaves open about blanks is log entry 14. -/

namespace Sys2Proof.Machine

/-- A token: a run of characters, or one punctuation character. -/
inductive Tok where
  | word (cs : List Char)
  | sym (c : Char)
  deriving DecidableEq, Repr

/-- The opening brace of an operand block. -/
def openBrace : Char := Char.ofNat 123

/-- The closing brace of an operand block. -/
def closeBrace : Char := Char.ofNat 125

/-- The punctuation of R47. -/
def isPunct (c : Char) : Bool :=
  [openBrace, closeBrace, '(', ')', '[', ']', ',', '='].contains c

/-- The token of the characters read so far, newest first. -/
def flushWord (acc : List Char) : List Tok := if acc.isEmpty then [] else [.word acc.reverse]

/-- The tokens of one line; `#` starts a comment (R47). -/
def lexLine : List Char → List Char → List Tok
  | [], acc => flushWord acc
  | c :: cs, acc =>
    if c = '#' then flushWord acc
    else if c = ' ' ∨ c = '\t' ∨ c = '\r' then flushWord acc ++ lexLine cs []
    else if isPunct c then flushWord acc ++ .sym c :: lexLine cs []
    else lexLine cs (c :: acc)

/-- The value of a digit in the given base. -/
def digitValue (base : Nat) (c : Char) : Option Nat :=
  let v := if '0' ≤ c ∧ c ≤ '9' then some (c.toNat - '0'.toNat)
    else if 'a' ≤ c ∧ c ≤ 'f' then some (c.toNat - 'a'.toNat + 10)
    else if 'A' ≤ c ∧ c ≤ 'F' then some (c.toNat - 'A'.toNat + 10)
    else none
  v.filter fun d => decide (d < base)

/-- The digits after a value already read. -/
def digitsFrom (base : Nat) : List Char → Nat → Option Nat
  | [], acc => some acc
  | c :: cs, acc => (digitValue base c).bind fun d => digitsFrom base cs (acc * base + d)

/-- An unsigned number in the given base: at least one digit. -/
def readNat (base : Nat) (cs : List Char) : Option Nat :=
  if cs.isEmpty then none else digitsFrom base cs 0

/-- "a decimal integer ..., optionally signed" (R47). -/
def readInt : List Char → Option Int
  | '-' :: cs => (readNat 10 cs).map fun v => -(v : Int)
  | '+' :: cs => (readNat 10 cs).map fun v => (v : Int)
  | cs => (readNat 10 cs).map fun v => (v : Int)

/-- A mask: binary digits, bare as in 95_test_vectors.md or prefixed `0b`, or hexadecimal prefixed `0x`
(R6). 95_test_vectors.md writes `N` digits and R47 gives no count: taking any number of digits, as a number whose
other bits are 0, is the model's own (DESIGN CHOICE, log entry 14). -/
def readMask : List Char → Option Nat
  | '0' :: 'b' :: cs => readNat 2 cs
  | '0' :: 'x' :: cs => readNat 16 cs
  | cs => readNat 2 cs

/-- The rest after an expected token. -/
def expect (t : Tok) : List Tok → Option (List Tok)
  | u :: rest => if u = t then some rest else none
  | [] => none

/-- The rest after an expected name. -/
def expectName (name : String) : List Tok → Option (List Tok) := expect (.word name.toList)

/-- A number of a list and the rest. DESIGN CHOICE (log entry 14): R47 gives the lists "decoded integer
values" and no numeral form; they are read as `<T>` is, decimal and optionally signed. -/
def takeInt : List Tok → Option (Int × List Tok)
  | .word w :: rest => (readInt w).map fun v => (v, rest)
  | _ => none

/-- An unsigned number and the rest: decimal digits alone, with no sign. R47 says so of `<p>` ("a decimal
unsigned integer"); it gives the three numbers of `len=(a,b,c)` no numeral form, and reading them the same
way is the model's own (DESIGN CHOICE, log entry 14), as is taking leading zeros in any number. -/
def takeNat : List Tok → Option (Nat × List Tok)
  | .word w :: rest => (readNat 10 w).map fun v => (v, rest)
  | _ => none

/-- The values of a list whose bracket is open: `v, v, ... ]`. -/
def takeValues : List Tok → Option (List Int × List Tok)
  | .word w :: .sym ',' :: rest =>
    match readInt w, takeValues rest with
    | some v, some (vs, r) => some (v :: vs, r)
    | _, _ => none
  | .word w :: .sym ']' :: rest => (readInt w).map fun v => ([v], rest)
  | _ => none

/-- `name=[...]`; the list may be empty. -/
def takeList (name : String) (ts : List Tok) : Option (List Int × List Tok) := do
  let ts ← expectName name ts
  let ts ← expect (.sym '=') ts
  let ts ← expect (.sym '[') ts
  match ts with
  | .sym ']' :: rest => some ([], rest)
  | _ => takeValues ts

/-- `len=(a,b,c) thr=[...] hys=[...] spd=[...] period=<p>` between its braces (R47). How its numbers are
spelt is `takeNat`'s for `len` and `period` and `takeInt`'s for the lists; that the fields stand in this
order is the model's own (DESIGN CHOICE, log entry 14). -/
def takeConfig (ts : List Tok) : Option (ConfigText × List Tok) := do
  let ts ← expect (.sym openBrace) ts
  let ts ← expectName "len" ts
  let ts ← expect (.sym '=') ts
  let ts ← expect (.sym '(') ts
  let (a, ts) ← takeNat ts
  let ts ← expect (.sym ',') ts
  let (b, ts) ← takeNat ts
  let ts ← expect (.sym ',') ts
  let (c, ts) ← takeNat ts
  let ts ← expect (.sym ')') ts
  let (thr, ts) ← takeList "thr" ts
  let (hys, ts) ← takeList "hys" ts
  let (spd, ts) ← takeList "spd" ts
  let ts ← expectName "period" ts
  let ts ← expect (.sym '=') ts
  let (p, ts) ← takeNat ts
  let ts ← expect (.sym closeBrace) ts
  some ({ lenThr := a, lenHys := b, lenSpd := c, thr := thr, hys := hys, spd := spd, period := p }, ts)

/-- The names of the parameters of R5 that have a fixed value. -/
def fixedNames : List (String × FixedParam) :=
  [("NT", .nt), ("TEMP_W", .tempW), ("CFG_W", .cfgW), ("PERIOD_W", .periodW), ("DUTY_W", .dutyW),
    ("SPD_W", .spdW), ("TIER_W", .tierW), ("LEN_W", .lenW)]

/-- The setting of `.param NAME=value`, for each name of R5's table (R47). -/
def readSetting (name value : List Char) : Option Setting :=
  if name = "N".toList then (readNat 10 value).map .bands
  else if name = "CFG_DECODE".toList then
    if value = "IDENT".toList then some (.cfgDecode .ident)
    else if value = "BSWAP32".toList then some (.cfgDecode .bswap32)
    else none
  else if name = "INIT_MASK".toList then (readMask value).map .initMask
  else if name = "DECODER".toList then
    if value = "popcount".toList then some (.decoder .popcount)
    else if value = "hsb1".toList then some (.decoder .hsb1)
    else if value = "cto".toList then some (.decoder .cto)
    else none
  else
    match fixedNames.find? fun x => decide (name = x.1.toList) with
    | some x => (readNat 10 value).map (.fixed x.2)
    | none => none

/-- A whole line's tokens: at most one line of the stream, none for a text that is not one (R47, R48). -/
def readTokens : List Tok → Option (List Line)
  | [] => some []
  | [.word w] =>
    if w = "NOP".toList then some [.nop]
    else if w = "INIT".toList then some [.init]
    else if w = ".reset".toList then some [.reset]
    else none
  | [.word w, .word v] =>
    if w = "EVAL".toList then (readInt v).map fun t => [.eval t]
    else if w = "EVALC".toList then (readInt v).map fun d => [.evalc d]
    else none
  | [.word w, .word name, .sym '=', .word value] =>
    if w = ".param".toList then (readSetting name value).map fun x => [.param x] else none
  | .word w :: ts =>
    if w = "LDCFG".toList then
      match takeConfig ts with
      | some (c, []) => some [.ldcfg c]
      | _ => none
    else none
  | _ => none

/-- One line of text (R47). -/
def readLine (text : String) : Option (List Line) := readTokens (lexLine text.toList [])

/-- A stream given line by line: "One command per line" (R47). -/
def readLines : List String → Option (List Line)
  | [] => some []
  | t :: ts =>
    match readLine t, readLines ts with
    | some l, some ls => some (l ++ ls)
    | _, _ => none

end Sys2Proof.Machine
end

