-- ==== Sys2Proof/Safety.lean ====
section
/-! DEFINITION. What claims are stated in: the invariant of a loaded table (10_state.md rule R16), the
premises of 43_laws.md, and the modes (60_exceptions.md rule R118). -/

namespace Sys2Proof.Machine

variable {n : Nat}

/-- What holds of the table whenever `CFG_VALID = 1` (R16 (a) to (d)). -/
structure Table.Valid (c : Table n) : Prop where
  /-- (a) the thresholds are non-decreasing. -/
  thrMono : ∀ i j : Fin n, j.val = i.val + 1 → sint c.thr[i] ≤ sint c.thr[j]
  /-- (b) each hysteresis threshold is at most its threshold. -/
  hysLe : ∀ i : Fin n, sint c.hys[i] ≤ sint c.thr[i]
  /-- (c) each speed is at most 100. -/
  spdLe : ∀ k : Fin (n + 1), uint c.spd[k] ≤ 100
  /-- (d) `DPP` is the quotient of `PERIOD`. -/
  dppEq : uint c.dpp = fdiv (uint c.period) 100

/-- `HysMono`: the hysteresis thresholds are non-decreasing. LDCFG does not check it (43_laws.md). -/
abbrev Table.HysMono (c : Table n) : Prop :=
  ∀ i j : Fin n, j.val = i.val + 1 → sint c.hys[i] ≤ sint c.hys[j]

/-- `SpdMono`: the speeds are non-decreasing. LDCFG does not check it (43_laws.md). -/
abbrev Table.SpdMono (c : Table n) : Prop :=
  ∀ i j : Fin (n + 1), j.val = i.val + 1 → uint c.spd[i] ≤ uint c.spd[j]

/-- `a(t)`: how many thresholds are at or below `t` (43_laws.md). -/
def Table.countRising (c : Table n) (t : Int) : Nat :=
  (List.finRange n).countP fun i => decide (t ≥ sint c.thr[i])

/-- `b(t)`: how many hysteresis thresholds are at or below `t` (43_laws.md). -/
def Table.countFalling (c : Table n) (t : Int) : Nat :=
  (List.finRange n).countP fun i => decide (t ≥ sint c.hys[i])

/-- `m` is bitwise contained in `m'` (R98). -/
abbrev MaskLe (m m' : Mask n) : Prop := ∀ i : Fin n, m[i] = true → m'[i] = true

/-- The invariant every step keeps: in mode CONFIGURED the table is valid (R16). -/
def State.TableInv (s : State) : Prop := s.block.cfgValid = true → s.block.table.Valid

/-- The nesting invariant and its premise on the parameter: `INIT_MASK` and `MASK` are prefix masks (R96). -/
def State.Nested (s : State) : Prop := IsPrefix s.block.params.initMask ∧ IsPrefix s.block.mask

/-- `HysMono` of the loaded table, when one is loaded (R96). -/
def State.HysMonoIfLoaded (s : State) : Prop := s.block.cfgValid = true → s.block.table.HysMono

/-- The two lifecycle modes (R118). -/
inductive Mode where
  | unconfigured
  | configured
  deriving DecidableEq, Repr

/-- The mode is `CFG_VALID` and nothing else (R118). -/
def State.mode (s : State) : Mode := if s.block.cfgValid then .configured else .unconfigured

end Sys2Proof.Machine
end

