-- ==== Sys2Proof/Certificates/Slice0/Obligations.lean ====
section
/-! DEFINITION. The statements for the provers. -/

open Sys2Proof Sys2Proof.Machine

/-! ### The command word and the step -/

/-- R38, R39: the opcode map, on every 34-bit word. -/
def Obligations.OpcodeMapDecodesEveryWord : Prop :=
  ∀ w : CmdWord,
    (w.extractLsb' 32 2 = 0b00#2 → decode w = .nop (w.extractLsb' 0 32)) ∧
    (w.extractLsb' 32 2 = 0b01#2 → decode w = .ldcfg (w.extractLsb' 0 32)) ∧
    (w.extractLsb' 32 2 = 0b10#2 → decode w = .init (w.extractLsb' 0 32)) ∧
    (w.extractLsb' 32 2 = 0b11#2 → decode w = .eval (w.extractLsb' 0 32))

/-- R38, R39, R45: decoding and encoding are inverse to each other, both ways: no bit of a word is lost and
every word is a command. -/
def Obligations.DecodeEncodeAreInverse : Prop :=
  (∀ i : Instr, decode (encode i) = i) ∧ (∀ w : CmdWord, encode (decode w) = w)

/-- R49: the encoding examples. -/
def Obligations.EncodingExamplesHold : Prop :=
  encode (.nop 0) = 0x000000000#34 ∧ encode (.ldcfg 0) = 0x100000000#34 ∧
  encode (.init 0) = 0x200000000#34 ∧
  encode (.eval (BitVec.ofInt 32 42000)) = 0x30000A410#34 ∧
  encode (.eval (BitVec.ofInt 32 (-1))) = 0x3FFFFFFFF#34 ∧
  encode (.eval (BitVec.ofInt 32 (-2147483648))) = 0x380000000#34 ∧
  decode 0x000000000#34 = .nop 0 ∧ decode 0x100000000#34 = .ldcfg 0 ∧
  decode 0x200000000#34 = .init 0 ∧ decode 0x30000A410#34 = .eval (BitVec.ofInt 32 42000) ∧
  decode 0x3FFFFFFFF#34 = .eval (BitVec.ofInt 32 (-1)) ∧
  decode 0x380000000#34 = .eval (BitVec.ofInt 32 (-2147483648))

/-- opcode_table.json: a word is a command of a row exactly when it meets the row's match under its mask. -/
def Obligations.TableRowsSelectTheCommand : Prop :=
  ∀ w : CmdWord,
    ((∃ a, decode w = .nop a) ↔ w &&& 0x300000000#34 = 0x000000000#34) ∧
    ((∃ a, decode w = .ldcfg a) ↔ w &&& 0x300000000#34 = 0x100000000#34) ∧
    ((∃ a, decode w = .init a) ↔ w &&& 0x300000000#34 = 0x200000000#34) ∧
    ((∃ a, decode w = .eval a) ↔ w &&& 0x300000000#34 = 0x300000000#34)

/-- R41: the ignored `arg` of NOP, LDCFG and INIT has no effect, and an assembler writes zero there. -/
def Obligations.IgnoredArgHasNoEffect : Prop :=
  (∀ (a b : BitVec 32) (s : State),
    exec (.nop a) s = exec (.nop b) s ∧ exec (.ldcfg a) s = exec (.ldcfg b) s ∧
    exec (.init a) s = exec (.init b) s) ∧
  Line.toInstr .nop = some (.nop 0) ∧ Line.toInstr .init = some (.init 0) ∧
  ∀ c : ConfigText, Line.toInstr (.ldcfg c) = some (.ldcfg 0)

/-- R9, R35, R37: a step whose next host move is a command word that decodes to `i` is `exec i`, with the
move taken from the queue and its operand bus on the bus (that the host's moves wait in a queue of the
state is the model's own, log entry 1). -/
def Obligations.StepRunsTheDecodedCommand : Prop :=
  ∀ (n : Nat) (b : Block n) (w : CmdWord) (bus : Bus n) (rest : List (HostMove n)) (i : Instr),
    b.host = .command w bus :: rest → decode w = i → i.wellFormed = true →
    step (.of b) = exec i (.of { b with host := rest, bus := bus })

/-- R112, R123, R124: a reset mark gives the reset state of this instance and no response. That the table
then holds the next free draw, and that the bus keeps what the host drives on it, are the model's own
(log entries 7, 8, 9). -/
def Obligations.ResetMarkGivesTheResetState : Prop :=
  ∀ (n : Nat) (b : Block n) (rest : List (HostMove n)),
    b.host = .reset :: rest →
    step (.of b) = .next (.of { Block.resetWith b.params with
      host := rest, bus := b.bus, table := unloadedTable n b.draws, draws := b.draws + 1 })

/-- R17, R19, R123, R5: what reset leaves: `CFG_VALID = 0`, `MASK = INIT_MASK`, by default all-zero, no
response pending, and 8 bands by default. -/
def Obligations.ResetValuesAreTheSpecs : Prop :=
  (∀ (n : Nat) (p : Params n), (Block.resetWith p).cfgValid = false ∧
    (Block.resetWith p).mask = p.initMask ∧ (Block.resetWith p).response = none) ∧
  (∀ n : Nat, (Params.default n).initMask = 0 ∧ (Params.default n).decoder = .popcount) ∧
  State.reset = .of (Block.resetWith (Params.default 8))

/-- R125, R137: with no command presented the block waits: nothing changes and no response is returned (that
the port then shows none is the model's own, log entry 2). -/
def Obligations.WithoutACommandTheBlockWaits : Prop :=
  ∀ (n : Nat) (b : Block n), b.host = [] → step (.of b) = .next (.of { b with response := none })

/-- 93 U10 (the model's choice, log entry 10): each breach by the host faults under its own name. -/
def Obligations.HostBreachFaults : Prop :=
  ∀ (n : Nat) (b : Block n) (x : Breach) (rest : List (HostMove n)),
    b.host = .breach x :: rest → step (.of b) = .fault (.hostBreach x)

/-! ### NOP and INIT -/

/-- R85: NOP in full, in either mode: `op = 0b00`, `respond(OK)`, and nothing else changes. -/
def Obligations.NopRespondsAndChangesNothing : Prop :=
  (∀ w : CmdWord, w.extractLsb' 32 2 = 0b00#2 ↔ ∃ a, decode w = .nop a) ∧
  ∀ (n : Nat) (a : BitVec 32) (b : Block n),
    exec (.nop a) (.of b) =
      .next (.of { b with response := some { status := .ok, result := none } })

/-- R83: INIT in full, in every state: `op = 0b10`, `MASK <- INIT_MASK`, `respond(OK)`, nothing else;
`INIT_MASK` is all-zero by default and, like every parameter, fixed for the whole life of the instance. -/
def Obligations.InitRestartsTheLatch : Prop :=
  (∀ w : CmdWord, w.extractLsb' 32 2 = 0b10#2 ↔ ∃ a, decode w = .init a) ∧
  (∀ (n : Nat) (a : BitVec 32) (b : Block n),
    exec (.init a) (.of b) =
      .next (.of { b with mask := b.params.initMask,
                          response := some { status := .ok, result := none } })) ∧
  (∀ n : Nat, (Params.default n).initMask = 0) ∧
  ∀ (n : Nat) (b : Block n) (t : State), step (.of b) = .next t →
    ∃ b' : Block n, t = .of b' ∧ b'.params = b.params

/-- R86: the worked examples of the family: `NOP; NOP` from any state, and `INIT; NOP; EVAL 50000` from
reset. -/
def Obligations.SystemFamilyExamples : Prop :=
  (∀ (n : Nat) (b : Block n) (bus : Bus n), ∃ b' : Block n,
    runMoves [.command 0x000000000#34 bus, .command 0x000000000#34 bus] b =
      .next ([{ status := .ok, result := none }, { status := .ok, result := none }], .of b') ∧
    b'.cfgValid = b.cfgValid ∧ b'.table = b.table ∧ b'.mask = b.mask ∧ b'.params = b.params) ∧
  (∀ (n : Nat) (p : Params n) (bus : Bus n), ∃ b' : Block n,
    runMoves [.command 0x200000000#34 bus, .command 0x000000000#34 bus, .command 0x30000C350#34 bus]
        (Block.resetWith p) =
      .next ([{ status := .ok, result := none }, { status := .ok, result := none },
        { status := .notConfigured, result := none }], .of b') ∧
    b'.mask = p.initMask ∧ b'.cfgValid = false)

/-- R85, R136: a NOP in front of a run adds its own response and changes nothing an observer sees of the
rest. -/
def Obligations.NopIsTransparent : Prop :=
  ∀ (n : Nat) (a : BitVec 32) (bus : Bus n) (ms : List (HostMove n)) (b : Block n) (t : State)
      (rs : List Response),
    runMoves ms b = .next (rs, t) →
    ∃ t', runMoves (HostMove.ofInstr (.nop a) bus :: ms) b =
        .next ({ status := .ok, result := none } :: rs, t') ∧
      t'.observation rs = t.observation rs

/-! ### LDCFG -/

/-- R55: in mode CONFIGURED LDCFG is refused with `LOCKED` (code 6) and nothing is written; after a refused
LDCFG in mode UNCONFIGURED the next one is processed as if the first had not been there. -/
def Obligations.LoadIsLockedOnceConfigured : Prop :=
  Status.locked.code = 6 ∧
  (∀ (n : Nat) (a : BitVec 32) (b : Block n), b.cfgValid = true →
    exec (.ldcfg a) (.of b) =
      .next (.of { b with response := some { status := .locked, result := none } })) ∧
  (∀ (n : Nat) (a a' : BitVec 32) (b b' : Block n) (r : Response) (bus : Bus n), b.cfgValid = false →
    exec (.ldcfg a) (.of b) = .next (.of b') → b'.response = some r → r.status ≠ .ok →
    exec (.ldcfg a') (.of { b' with bus := bus }) = exec (.ldcfg a') (.of { b with bus := bus }))

/-- R57: `INVALID_LENGTH` (code 1), with no other change, exactly when a length is not the one it must be;
for 8 bands only (8, 8, 9) is accepted. -/
def Obligations.LengthCheck : Prop :=
  Status.invalidLength.code = 1 ∧
  (∀ (n : Nat) (a : BitVec 32) (b : Block n), b.cfgValid = false →
    (exec (.ldcfg a) (.of b) =
        .next (.of { b with response := some { status := .invalidLength, result := none } }) ↔
      b.bus.lenThr.toNat ≠ n ∨ b.bus.lenHys.toNat ≠ n ∨ b.bus.lenSpd.toNat ≠ n + 1)) ∧
  ∀ bus : Bus 8, bus.LengthsRight ↔ bus.lenThr = 8#8 ∧ bus.lenHys = 8#8 ∧ bus.lenSpd = 9#8

/-- R58: with the lengths right, `NON_MONOTONIC` (code 2), with no other change, exactly when some decoded
threshold is above the next, signed; with one band the check always passes. -/
def Obligations.MonotonicityCheck : Prop :=
  Status.nonMonotonic.code = 2 ∧
  (∀ (n : Nat) (a : BitVec 32) (b : Block n), b.cfgValid = false → b.bus.LengthsRight →
    (exec (.ldcfg a) (.of b) =
        .next (.of { b with response := some { status := .nonMonotonic, result := none } }) ↔
      ∃ i j : Fin n, j.val = i.val + 1 ∧
        (cfgDecode b.params.cfgDecode b.bus.thrRaw[i]).toInt >
          (cfgDecode b.params.cfgDecode b.bus.thrRaw[j]).toInt)) ∧
  ∀ (d : CfgDecode) (bus : Bus 1), ¬ bus.Decreasing d

/-- R59: with the lengths right and the thresholds non-decreasing, `INVALID_HYSTERESIS` (code 3), with no
other change, exactly when some decoded hysteresis threshold is above its threshold, signed; a band with
the lowest hysteresis threshold never unlatches. -/
def Obligations.HysteresisCheck : Prop :=
  Status.invalidHysteresis.code = 3 ∧
  (∀ (n : Nat) (a : BitVec 32) (b : Block n), b.cfgValid = false → b.bus.LengthsRight →
    ¬ b.bus.Decreasing b.params.cfgDecode →
    (exec (.ldcfg a) (.of b) =
        .next (.of { b with response := some { status := .invalidHysteresis, result := none } }) ↔
      ∃ i : Fin n, (cfgDecode b.params.cfgDecode b.bus.hysRaw[i]).toInt >
        (cfgDecode b.params.cfgDecode b.bus.thrRaw[i]).toInt)) ∧
  (∀ (n : Nat) (arg : BitVec 32) (b b' : Block n) (i : Fin n),
    b.table.hys[i].toInt = -2147483648 → b.mask[i] = true →
    exec (.eval arg) (.of b) = .next (.of b') → b'.mask[i] = true)

/-- R60: with the checks before it passed, `INVALID_SPEED` (code 4), with no other change, exactly when
some decoded speed, the idle one included, is above 100 as an unsigned word. -/
def Obligations.SpeedCheck : Prop :=
  Status.invalidSpeed.code = 4 ∧
  ∀ (n : Nat) (a : BitVec 32) (b : Block n), b.cfgValid = false → b.bus.LengthsRight →
    ¬ b.bus.Decreasing b.params.cfgDecode → ¬ b.bus.HysteresisAbove b.params.cfgDecode →
    (exec (.ldcfg a) (.of b) =
        .next (.of { b with response := some { status := .invalidSpeed, result := none } }) ↔
      ∃ k : Fin (n + 1), (cfgDecode b.params.cfgDecode b.bus.spdRaw[k]).toNat > 100)

/-- R63, R64: with every check passed LDCFG completes: the decoded words in `THR` and `HYS`, the decoded
speeds in `SPD` with nothing lost, the period as presented, `DPP` the floor of a hundredth of it (at most
42949672, whatever the period), `CFG_VALID = 1`, `respond(OK)`, all together; `MASK` and everything else
unchanged. -/
def Obligations.LoadCommitsTheWholeTable : Prop :=
  ∀ (n : Nat) (a : BitVec 32) (b : Block n), b.cfgValid = false → b.bus.LengthsRight →
    ¬ b.bus.Decreasing b.params.cfgDecode → ¬ b.bus.HysteresisAbove b.params.cfgDecode →
    ¬ b.bus.SpeedAbove b.params.cfgDecode →
    ∃ c : Table n,
      exec (.ldcfg a) (.of b) =
        .next (.of { b with cfgValid := true, table := c,
                            response := some { status := .ok, result := none } }) ∧
      (∀ i : Fin n, c.thr[i] = cfgDecode b.params.cfgDecode b.bus.thrRaw[i] ∧
        c.hys[i] = cfgDecode b.params.cfgDecode b.bus.hysRaw[i]) ∧
      (∀ k : Fin (n + 1),
        c.spd[k].toNat = (cfgDecode b.params.cfgDecode b.bus.spdRaw[k]).toNat) ∧
      c.period = b.bus.period ∧ c.dpp.toNat = b.bus.period.toNat / 100 ∧
      c.dpp.toNat ≤ 42949672

/-- R7, R30: `CFG_DECODE` may be any total function on words: each is a strategy of the model; of the two
named ones `IDENT` is the identity, `BSWAP32` puts the four bytes in reverse order, and both are bijections,
each its own inverse. -/
def Obligations.NamedDecodingStrategies : Prop :=
  (∀ f : Word → Word, ∃ d : CfgDecode, cfgDecode d = f) ∧
  (∀ w : Word, cfgDecode .ident w = w) ∧
  (∀ (w : Word) (i : Nat), i < 8 →
    (cfgDecode .bswap32 w).getLsbD i = w.getLsbD (24 + i) ∧
    (cfgDecode .bswap32 w).getLsbD (8 + i) = w.getLsbD (16 + i) ∧
    (cfgDecode .bswap32 w).getLsbD (16 + i) = w.getLsbD (8 + i) ∧
    (cfgDecode .bswap32 w).getLsbD (24 + i) = w.getLsbD i) ∧
  (∀ w : Word, cfgDecode .bswap32 (cfgDecode .bswap32 w) = w)

/-- R132: reconfiguring: a reset mark and then an LDCFG whose operands pass the checks load the new table,
with the latch history gone (`MASK = INIT_MASK`), whatever state came before. -/
def Obligations.ResetAllowsReconfiguration : Prop :=
  ∀ (n : Nat) (b : Block n) (bus : Bus n), bus.configError b.params.cfgDecode = none →
    ∃ b' : Block n, runMoves [.reset, HostMove.ofInstr (.ldcfg 0) bus] b =
        .next ([{ status := .ok, result := none }], .of b') ∧
      b'.cfgValid = true ∧ b'.table = bus.toTable b.params.cfgDecode ∧ b'.mask = b.params.initMask

/-- R16, R19, R55: the table is immutable after construction: from mode CONFIGURED, a run without a reset
mark leaves the table and `CFG_VALID` as they are. -/
def Obligations.TableIsImmutableUntilReset : Prop :=
  ∀ (n : Nat) (ms : List (HostMove n)) (b b' : Block n) (rs : List Response),
    b.cfgValid = true → (∀ m ∈ ms, m.isCommand = true) → runMoves ms b = .next (rs, .of b') →
    b'.cfgValid = true ∧ b'.table = b.table

/-! ### EVAL -/

/-- R68: EVAL in mode UNCONFIGURED is refused with `NOT_CONFIGURED` (code 5) and nothing is written; in
mode CONFIGURED it is never refused. -/
def Obligations.EvalNeedsAConfiguration : Prop :=
  Status.notConfigured.code = 5 ∧
  (∀ (n : Nat) (arg : BitVec 32) (b : Block n), b.cfgValid = false →
    exec (.eval arg) (.of b) =
      .next (.of { b with response := some { status := .notConfigured, result := none } })) ∧
  (∀ (n : Nat) (arg : BitVec 32) (b : Block n), b.cfgValid = true →
    ∃ (b' : Block n) (e : Evaluation), exec (.eval arg) (.of b) = .next (.of b') ∧
      b'.response = some { status := .ok, result := some e })

/-- R77: EVAL in full, with this block's decoder and a table as R16 says: refused with `NOT_CONFIGURED` if
`CFG_VALID = 0`; otherwise every band's latch rule on the whole-degree temperature, the count of the new
mask, that tier's speed, the exact product; nothing but `MASK` is written. -/
def Obligations.EvalInFull : Prop :=
  (∀ (n : Nat) (arg : BitVec 32) (b : Block n), b.cfgValid = false →
    exec (.eval arg) (.of b) =
      .next (.of { b with response := some { status := .notConfigured, result := none } })) ∧
  ∀ (n : Nat) (arg : BitVec 32) (b : Block n), b.cfgValid = true → b.table.Valid →
    b.params.decoder = .popcount →
    ∃ (m : Mask n) (e : Evaluation), exec (.eval arg) (.of b) =
        .next (.of { b with mask := m, response := some { status := .ok, result := some e } }) ∧
      (∀ i : Fin n, m[i] =
        (decide (tdiv arg.toInt 1000 ≥ b.table.thr[i].toInt) ||
          (decide (tdiv arg.toInt 1000 ≥ b.table.hys[i].toInt) && b.mask[i]))) ∧
      e.tier.toNat = popcount m ∧
      (∀ k : Fin (n + 1), k.val = e.tier.toNat → e.speed = b.table.spd[k]) ∧
      e.duty.toNat = e.speed.toNat * b.table.dpp.toNat

/-- R78, R79: EVAL completes for every argument, mask, table, decoder and number of bands: the latch rule as
before, the tier the decoder's, in `0..N`, and the speed that tier's entry; nothing but `MASK` is written.
The tier's field has `TIER_W` bits, the least width that holds `0..N` (R5). -/
def Obligations.EvalCompletesForEveryDecoder : Prop :=
  (∀ (n : Nat) (arg : BitVec 32) (b : Block n), b.cfgValid = true →
    ∃ (m : Mask n) (e : Evaluation), exec (.eval arg) (.of b) =
        .next (.of { b with mask := m, response := some { status := .ok, result := some e } }) ∧
      m = b.table.newMask (tdiv arg.toInt 1000) b.mask ∧
      e.tier.toNat = Decoder.count b.params.decoder m ∧ e.tier.toNat ≤ n ∧
      e.tier.width = tierWidth n ∧
      (∀ k : Fin (n + 1), k.val = e.tier.toNat → e.speed = b.table.spd[k])) ∧
  (∀ n : Nat, n + 1 ≤ 2 ^ tierWidth n ∧ ∀ k, n + 1 ≤ 2 ^ k → tierWidth n ≤ k) ∧
  tierWidth 8 = 4

/-- R72: the latch as a three-region function per band, and the truth table of the rule. -/
def Obligations.LatchHasThreeRegions : Prop :=
  (∀ (n : Nat) (arg : BitVec 32) (b b' : Block n) (i : Fin n), b.cfgValid = true → b.table.Valid →
    exec (.eval arg) (.of b) = .next (.of b') →
    (tdiv arg.toInt 1000 < b.table.hys[i].toInt → b'.mask[i] = false) ∧
    (b.table.hys[i].toInt ≤ tdiv arg.toInt 1000 → tdiv arg.toInt 1000 < b.table.thr[i].toInt →
      b'.mask[i] = b.mask[i]) ∧
    (b.table.thr[i].toInt ≤ tdiv arg.toInt 1000 → b'.mask[i] = true) ∧
    (b.table.hys[i] = b.table.thr[i] →
      b'.mask[i] = decide (tdiv arg.toInt 1000 ≥ b.table.thr[i].toInt))) ∧
  (∀ (n : Nat) (c : Table n) (t : Int) (old : Mask n) (i : Fin n),
    (c.newMask t old)[i] =
      match c.rising t i, c.falling t i, old[i] with
      | false, false, false => false
      | false, false, true => false
      | false, true, false => false
      | false, true, true => true
      | true, true, false => true
      | true, true, true => true
      | true, false, false => true
      | true, false, true => true)

/-- R70: bit `i` of the new mask depends on the temperature, `THR[i]`, `HYS[i]` and the old bit `i` only. -/
def Obligations.BandsAreIndependent : Prop :=
  ∀ (n : Nat) (arg : BitVec 32) (b₁ b₂ b₁' b₂' : Block n) (i : Fin n), b₁.cfgValid = true →
    b₂.cfgValid = true → b₁.table.thr[i] = b₂.table.thr[i] → b₁.table.hys[i] = b₂.table.hys[i] →
    b₁.mask[i] = b₂.mask[i] →
    exec (.eval arg) (.of b₁) = .next (.of b₁') → exec (.eval arg) (.of b₂) = .next (.of b₂') →
    b₁'.mask[i] = b₂'.mask[i]

/-- R87: the laws of the truncation to whole degrees. -/
def Obligations.TruncationLaws : Prop :=
  (∀ arg : BitVec 32, -2147483 ≤ wholeDegrees arg ∧ wholeDegrees arg ≤ 2147483) ∧
  tdiv (-2147483648) 1000 = -2147483 ∧ tdiv 2147483647 1000 = 2147483 ∧
  (∀ T1 T2 : Int, T1 ≤ T2 → tdiv T1 1000 ≤ tdiv T2 1000) ∧
  (∀ T : Int, tdiv (-T) 1000 = -tdiv T 1000) ∧
  (∀ T : Int, 0 ≤ T → 1000 * tdiv T 1000 ≤ T ∧ T ≤ 1000 * tdiv T 1000 + 999) ∧
  (∀ T : Int, T < 0 → 1000 * tdiv T 1000 - 999 ≤ T ∧ T ≤ 1000 * tdiv T 1000) ∧
  (∀ T : Int, 1000 * tdiv T 1000 ≤ T ↔ 0 ≤ T ∨ 1000 ∣ T) ∧
  (∀ T : Int, T ≠ 0 → |tdiv T 1000| < |T|) ∧
  (∀ T c : Int, 1 ≤ c → (tdiv T 1000 ≥ c ↔ T ≥ 1000 * c)) ∧
  (∀ T c : Int, c ≤ 0 → (tdiv T 1000 ≥ c ↔ T ≥ 1000 * c - 999))

/-- R90: the tier's range and its two ends, for this block's decoder. -/
def Obligations.TierRange : Prop :=
  ∀ (n : Nat) (arg : BitVec 32) (b b' : Block n) (e : Evaluation), b.params.decoder = .popcount →
    exec (.eval arg) (.of b) = .next (.of b') →
    b'.response = some { status := .ok, result := some e } →
    e.tier.toNat ≤ n ∧ (e.tier.toNat = 0 ↔ b'.mask = 0) ∧
    (e.tier.toNat = n ↔ b'.mask = BitVec.allOnes n)

/-- R91, R92: the speed is a percentage and the duty never exceeds the period, with every decoder. -/
def Obligations.SpeedAndDutyBounds : Prop :=
  ∀ (n : Nat) (arg : BitVec 32) (b b' : Block n) (e : Evaluation), b.table.Valid →
    exec (.eval arg) (.of b) = .next (.of b') →
    b'.response = some { status := .ok, result := some e } →
    e.speed.toNat ≤ 100 ∧ e.duty.toNat = e.speed.toNat * b.table.dpp.toNat ∧
    e.speed.toNat * b.table.dpp.toNat ≤ 100 * (b.table.period.toNat / 100) ∧
    100 * (b.table.period.toNat / 100) ≤ b.table.period.toNat ∧
    e.duty.toNat ≤ b.table.period.toNat

/-- R93: every duty is a multiple of `DPP` by one of 101 factors, and the full-speed duty loses the
remainder of the period. -/
def Obligations.DutyGranularity : Prop :=
  ∀ (n : Nat) (arg : BitVec 32) (b b' : Block n) (e : Evaluation), b.table.Valid →
    exec (.eval arg) (.of b) = .next (.of b') →
    b'.response = some { status := .ok, result := some e } →
    (∃ k : Nat, k ≤ 100 ∧ e.duty.toNat = k * b.table.dpp.toNat) ∧
    (e.speed.toNat = 100 →
      e.duty.toNat = b.table.period.toNat - b.table.period.toNat % 100 ∧
      (e.duty.toNat = b.table.period.toNat ↔ 100 ∣ b.table.period.toNat))

/-- R94: EVAL's response and new `MASK` are functions of `arg`, the old `MASK` and the table (and the
instance's decoder); LDCFG's response and effect are functions of `CFG_VALID`, the operand bus and
`CFG_DECODE`. Everything else may differ. -/
def Obligations.CommandsAreDeterministic : Prop :=
  (∀ (n : Nat) (arg : BitVec 32) (b₁ b₂ b₁' b₂' : Block n), b₁.cfgValid = true →
    b₂.cfgValid = true → b₁.mask = b₂.mask → b₁.table = b₂.table →
    b₁.params.decoder = b₂.params.decoder →
    exec (.eval arg) (.of b₁) = .next (.of b₁') → exec (.eval arg) (.of b₂) = .next (.of b₂') →
    b₁'.response = b₂'.response ∧ b₁'.mask = b₂'.mask) ∧
  (∀ (n : Nat) (a₁ a₂ : BitVec 32) (b₁ b₂ b₁' b₂' : Block n), b₁.cfgValid = b₂.cfgValid →
    b₁.bus = b₂.bus → b₁.params.cfgDecode = b₂.params.cfgDecode →
    exec (.ldcfg a₁) (.of b₁) = .next (.of b₁') → exec (.ldcfg a₂) (.of b₂) = .next (.of b₂') →
    b₁'.response = b₂'.response ∧ b₁'.cfgValid = b₂'.cfgValid ∧
    ((b₁'.table = b₁.table ∧ b₂'.table = b₂.table) ∨ b₁'.table = b₂'.table) ∧
    b₁'.mask = b₁.mask ∧ b₂'.mask = b₂.mask)

/-- R95: EVAL is idempotent, with no premise on the table, the mask or the decoder: the same command again
gives the same state and the same response. -/
def Obligations.EvalIsIdempotent : Prop :=
  ∀ (arg : BitVec 32) (s t : State), exec (.eval arg) s = .next t → exec (.eval arg) t = .next t

/-! ### The nesting invariant -/

/-- R16: in mode CONFIGURED the table is valid, and every step keeps that, from every state. -/
def Obligations.StepKeepsTheTableValid : Prop :=
  ∀ s t : State, s.TableInv → step s = .next t → t.TableInv

/-- R16, R123: the table invariant holds at reset, for every parameter. -/
def Obligations.ResetHasTheTableInvariant : Prop :=
  State.reset.TableInv ∧ ∀ (n : Nat) (p : Params n), (State.of (Block.resetWith p)).TableInv

/-- R96: every step from a nested state with a valid table whose hysteresis thresholds are non-decreasing
(if one is loaded) keeps the nesting, whatever the step is. -/
def Obligations.StepKeepsNesting : Prop :=
  ∀ s t : State, s.TableInv → s.HysMonoIfLoaded → s.Nested → step s = .next t → t.Nested

/-- R96: under `NestOK` every value `MASK` takes after reset is a prefix mask: in every run from reset with
`INIT_MASK` a prefix mask, if each configuration the run loads, by an LDCFG met with `CFG_VALID = 0` whose
operands pass the checks, has non-decreasing hysteresis thresholds. -/
def Obligations.NestingHoldsOverRuns : Prop :=
  ∀ (n : Nat) (p : Params n) (ms : List (HostMove n)) (b' : Block n) (rs : List Response),
    IsPrefix p.initMask →
    (∀ (before rest : List (HostMove n)) (w : CmdWord) (bus : Bus n) (a : BitVec 32) (s : Block n)
      (rs' : List Response), ms = before ++ .command w bus :: rest →
      runMoves before (Block.resetWith p) = .next (rs', .of s) → s.cfgValid = false →
      decode w = .ldcfg a → bus.configError p.cfgDecode = none → (bus.toTable p.cfgDecode).HysMono) →
    runMoves ms (Block.resetWith p) = .next (rs, .of b') → IsPrefix b'.mask

/-- R96: `HysMono` is also necessary: with a pair of hysteresis thresholds out of order, two EVALs from the
empty mask leave a gap. -/
def Obligations.NestingNeedsHysMono : Prop :=
  ∀ (n : Nat) (b b₁ b₂ : Block n) (i j : Fin n), b.cfgValid = true → b.table.Valid → b.mask = 0 →
    i < j → b.table.hys[j].toInt < b.table.hys[i].toInt → b.table.thr[j].toInt ≤ 2147483 →
    b.table.hys[i].toInt > -2147483 →
    exec (.eval (BitVec.ofInt 32 (max b.table.thr[j].toInt (-2147483) * 1000))) (.of b) =
      .next (.of b₁) →
    exec (.eval (BitVec.ofInt 32 (max b.table.hys[j].toInt (-2147483) * 1000))) (.of b₁) =
      .next (.of b₂) →
    b₂.mask[j] = true ∧ b₂.mask[i] = false

/-- R7: a mask without a gap is the prefix mask of its count, and every prefix mask is without a gap. -/
def Obligations.PrefixMasksAreTheGaplessOnes : Prop :=
  ∀ (n : Nat) (m : Mask n), IsPrefix m ↔ ∃ k, k ≤ n ∧ m = prefixMask n k

/-- R97: on prefix masks all decoders agree, the model's fourth kind, `listed`, too, and that kind is every
decoder of 93 U1 with tiers in `0..N` (log entry 5); on every gap mask the three named ones differ, in this
order, R79's example among them. -/
def Obligations.DecodersAgreeOnPrefixMasks : Prop :=
  (∀ n k : Nat, k ≤ n → popcount (prefixMask n k) = k ∧ hsb1 (prefixMask n k) = k ∧
    cto (prefixMask n k) = k ∧ ∀ d : Decoder, Decoder.count d (prefixMask n k) = k) ∧
  (∀ (n : Nat) (g : Mask n → Nat), (∀ k, k ≤ n → g (prefixMask n k) = k) → (∀ m, g m ≤ n) →
    ∃ d : Decoder, ∀ m : Mask n, Decoder.count d m = g m) ∧
  (∀ (n : Nat) (m : Mask n), ¬ IsPrefix m → cto m < popcount m ∧ popcount m < hsb1 m) ∧
  popcount 0b00000010#8 = 1 ∧ hsb1 0b00000010#8 = 2 ∧ cto 0b00000010#8 = 0

/-- R98: the new mask is monotone in the temperature and in the old mask, and so is its count, with no
premise on the table. -/
def Obligations.NewMaskIsMonotone : Prop :=
  ∀ (n : Nat) (c : Table n) (t1 t2 : Int) (old old' : Mask n), t1 ≤ t2 → MaskLe old old' →
    MaskLe (c.newMask t1 old) (c.newMask t2 old') ∧
    popcount (c.newMask t1 old) ≤ popcount (c.newMask t2 old')

/-- R99: from the empty mask the tier is monotone in the temperature, and the duty is when the speeds are
non-decreasing. -/
def Obligations.DutyIsMonotoneUnderSpdMono : Prop :=
  ∀ (n : Nat) (a₁ a₂ : BitVec 32) (b b₁ b₂ : Block n) (e₁ e₂ : Evaluation), b.cfgValid = true →
    b.table.Valid → b.mask = 0 → a₁.toInt < a₂.toInt →
    exec (.eval a₁) (.of b) = .next (.of b₁) →
    b₁.response = some { status := .ok, result := some e₁ } →
    exec (.eval a₂) (.of b) = .next (.of b₂) →
    b₂.response = some { status := .ok, result := some e₂ } →
    e₁.tier.toNat ≤ e₂.tier.toNat ∧ (b.table.SpdMono → e₁.duty.toNat ≤ e₂.duty.toNat)

/-- R100: no chatter: with band `k` the highest latched one and the lower bands' hysteresis thresholds at
most its own, any sequence of EVALs between its two thresholds leaves `MASK` and answers the same tier,
with every decoder; and which millidegree values those are. -/
def Obligations.NoChatter : Prop :=
  (∀ (n : Nat) (b b' : Block n) (k : Fin n) (args : List (BitVec 32)) (bus : Bus n)
      (rs : List Response), b.cfgValid = true → b.table.Valid →
    b.mask = prefixMask n (k.val + 1) →
    (∀ j : Fin n, j < k → b.table.hys[j].toInt ≤ b.table.hys[k].toInt) →
    (∀ a ∈ args, b.table.hys[k].toInt ≤ wholeDegrees a ∧
      wholeDegrees a < b.table.thr[k].toInt) →
    runMoves (args.map fun a => HostMove.ofInstr (.eval a) bus) b = .next (rs, .of b') →
    b'.mask = prefixMask n (k.val + 1) ∧ rs.length = args.length ∧
    ∀ r ∈ rs, ∃ e, r = { status := .ok, result := some e } ∧ e.tier.toNat = k.val + 1) ∧
  (∀ T h r : Int, r ≥ 1 → 1000 * h < T → T < 1000 * r → h ≤ tdiv T 1000 ∧ tdiv T 1000 < r) ∧
  (∀ T r : Int, r ≤ 0 → 1000 * r - 1000 < T → T < 1000 * r → tdiv T 1000 = r)

/-- R101: saturation at both ends, from every mask and with every decoder, and exactly which tables let the
extreme arguments reach them (the two converses with this block's decoder, from the mask that resists).
`last` is band `N-1`. -/
def Obligations.TiersSaturate : Prop :=
  ∀ (n : Nat) (arg : BitVec 32) (b b' : Block n) (e : Evaluation) (last : Fin n),
    last.val + 1 = n → b.cfgValid = true → b.table.Valid →
    exec (.eval arg) (.of b) = .next (.of b') →
    b'.response = some { status := .ok, result := some e } →
    ((∀ i : Fin n, wholeDegrees arg < b.table.hys[i].toInt) →
      b'.mask = 0 ∧ e.tier.toNat = 0) ∧
    (wholeDegrees arg ≥ b.table.thr[last].toInt →
      b'.mask = BitVec.allOnes n ∧ e.tier.toNat = n) ∧
    (arg.toInt = -2147483648 → (∀ i : Fin n, b.table.hys[i].toInt > -2147483) →
      e.tier.toNat = 0) ∧
    (arg.toInt = 2147483647 → b.table.thr[last].toInt ≤ 2147483 → e.tier.toNat = n) ∧
    (arg.toInt = -2147483648 → b.params.decoder = .popcount → b.mask = BitVec.allOnes n →
      e.tier.toNat = 0 → ∀ i : Fin n, b.table.hys[i].toInt > -2147483) ∧
    (arg.toInt = 2147483647 → b.params.decoder = .popcount → b.mask = 0 →
      e.tier.toNat = n → b.table.thr[last].toInt ≤ 2147483)

/-- R102: from the empty mask the new mask is the prefix mask of the number of thresholds reached, and that
number is the tier; the hysteresis thresholds play no part. -/
def Obligations.ClosedFormFromTheEmptyMask : Prop :=
  ∀ (n : Nat) (arg : BitVec 32) (b b' : Block n) (e : Evaluation), b.cfgValid = true →
    b.table.Valid → b.mask = 0 → exec (.eval arg) (.of b) = .next (.of b') →
    b'.response = some { status := .ok, result := some e } →
    (∀ i : Fin n, b'.mask[i] = decide (wholeDegrees arg ≥ b.table.thr[i].toInt)) ∧
    b'.mask = prefixMask n (b.table.countRising (wholeDegrees arg)) ∧
    e.tier.toNat = b.table.countRising (wholeDegrees arg)

/-- R103: under nesting the whole block is one line: the old tier clamped between the number of thresholds
and the number of hysteresis thresholds reached. -/
def Obligations.ClosedFormUnderNesting : Prop :=
  ∀ (n : Nat) (arg : BitVec 32) (b b' : Block n) (e : Evaluation) (k : Nat), b.cfgValid = true →
    b.table.Valid → b.table.HysMono → k ≤ n → b.mask = prefixMask n k →
    exec (.eval arg) (.of b) = .next (.of b') →
    b'.response = some { status := .ok, result := some e } →
    b.table.countRising (wholeDegrees arg) ≤ b.table.countFalling (wholeDegrees arg) ∧
    b'.mask = prefixMask n (max (b.table.countRising (wholeDegrees arg))
      (min k (b.table.countFalling (wholeDegrees arg)))) ∧
    e.tier.toNat = max (b.table.countRising (wholeDegrees arg))
      (min k (b.table.countFalling (wholeDegrees arg)))

/-- R104: a band without a window is a plain comparator, and a table of such bands makes the whole mask, and
the tier, functions of the temperature. -/
def Obligations.BandsWithoutAWindow : Prop :=
  ∀ (n : Nat) (arg : BitVec 32) (b b' : Block n) (e : Evaluation), b.cfgValid = true →
    b.table.Valid → exec (.eval arg) (.of b) = .next (.of b') →
    b'.response = some { status := .ok, result := some e } →
    (∀ i : Fin n, b.table.hys[i] = b.table.thr[i] →
      b'.mask[i] = decide (wholeDegrees arg ≥ b.table.thr[i].toInt)) ∧
    ((∀ i : Fin n, b.table.hys[i] = b.table.thr[i]) →
      e.tier.toNat = b.table.countRising (wholeDegrees arg))

/-! ### Refusals, modes, runs -/

/-- R105, R113: a refused command leaves the state as it was; its response carries the status and no result;
the next command runs from the unchanged state. -/
def Obligations.RefusalsChangeNothing : Prop :=
  ∀ (n : Nat) (i : Instr) (b b' : Block n) (r : Response), exec i (.of b) = .next (.of b') →
    b'.response = some r → r.status ≠ .ok →
    r.result = none ∧ b' = { b with response := some r } ∧
    ∀ (w : CmdWord) (bus : Bus n) (rest : List (HostMove n)),
      step (.of { b' with host := .command w bus :: rest }) =
        step (.of { b with host := .command w bus :: rest })

/-- R107: every command answers with one response, and which statuses each can carry. -/
def Obligations.StatusesOfEachCommand : Prop :=
  ∀ (i : Instr) (s : State), ∃ t r, exec i s = .next t ∧ t.block.response = some r ∧
    match i with
    | .nop _ => r.status = .ok
    | .init _ => r.status = .ok
    | .eval _ => r.status = .ok ∨ r.status = .notConfigured
    | .ldcfg _ => r.status = .ok ∨ r.status = .locked ∨ r.status = .invalidLength ∨
        r.status = .nonMonotonic ∨ r.status = .invalidHysteresis ∨ r.status = .invalidSpeed

/-- R44: `duty`, `tier` and `speed` are produced exactly by an EVAL that completes with `OK`. -/
def Obligations.ResultsComeFromCompletedEvals : Prop :=
  ∀ (i : Instr) (s t : State) (r : Response), exec i s = .next t → t.block.response = some r →
    (r.result.isSome = true ↔ (∃ arg, i = .eval arg) ∧ r.status = .ok)

/-- R106: the seven codes; no other code is ever produced. -/
def Obligations.StatusCodes : Prop :=
  Status.ok.code = 0 ∧ Status.invalidLength.code = 1 ∧ Status.nonMonotonic.code = 2 ∧
  Status.invalidHysteresis.code = 3 ∧ Status.invalidSpeed.code = 4 ∧
  Status.notConfigured.code = 5 ∧ Status.locked.code = 6 ∧
  ∀ st : Status, st.code.toNat < 7

/-- R119: the only changes of mode: a reset mark enters UNCONFIGURED from either mode, and a successful
LDCFG enters CONFIGURED from UNCONFIGURED. -/
def Obligations.ModeTransitions : Prop :=
  (∀ s t : State, step s = .next t →
    (∃ rest, s.block.host = .reset :: rest ∧ t.mode = .unconfigured) ∨
    (s.mode = .unconfigured ∧ t.mode = .configured ∧
      t.block.response = some { status := .ok, result := none } ∧
      ∃ w b rest a, s.block.host = .command w b :: rest ∧ decode w = .ldcfg a) ∨
    t.mode = s.mode) ∧
  (∀ (s t : State) (rest : List (HostMove s.bands)), s.block.host = .reset :: rest → step s = .next t →
    t.mode = .unconfigured) ∧
  (∀ (a : BitVec 32) (s t : State), exec (.ldcfg a) s = .next t →
    t.block.response = some { status := .ok, result := none } →
    s.mode = .unconfigured ∧ t.mode = .configured)

/-- R37, R131: outside the LDCFG step the operand bus is ignored: NOP, INIT and EVAL do the same whatever
stands on it. -/
def Obligations.OperandBusIsIgnoredOutsideLdcfg : Prop :=
  ∀ (n : Nat) (i : Instr) (b b' : Block n) (bus : Bus n), (∀ a, i ≠ .ldcfg a) →
    exec i (.of b) = .next (.of b') →
    exec i (.of { b with bus := bus }) = .next (.of { b' with bus := bus })

/-- R20, R24, R94: no hidden state: what an observer sees of a run depends on `CFG_VALID`, `MASK`, the
parameters and, in mode CONFIGURED, the table; never on the last response, the bus before, or the table's
contents while it holds no value. -/
def Obligations.OnlyTheArchitecturalStateIsObservable : Prop :=
  ∀ (n : Nat) (ms : List (HostMove n)) (b₁ b₂ : Block n) (t : State) (rs : List Response),
    b₁.cfgValid = b₂.cfgValid → b₁.mask = b₂.mask → b₁.params = b₂.params →
    (b₁.cfgValid = true → b₁.table = b₂.table) → runMoves ms b₁ = .next (rs, t) →
    ∃ t', runMoves ms b₂ = .next (rs, t') ∧ t'.observation rs = t.observation rs

/-- R138: a run of commands and reset marks cannot hang, fault or get stuck, from any state, and it returns
one response per command. -/
def Obligations.RunsNeverStop : Prop :=
  ∀ (n : Nat) (ms : List (HostMove n)) (b : Block n), (∀ m ∈ ms, m.allowed = true) →
    ∃ (rs : List Response) (b' : Block n), runMoves ms b = .next (rs, .of b') ∧
      rs.length = (ms.filter fun m => m.isCommand).length

/-- R35: commands take effect one after another: the run of two streams is the run of the second from the
state the first one left, and the responses come in order. -/
def Obligations.RunsCompose : Prop :=
  ∀ (n : Nat) (ms ms' : List (HostMove n)) (b b' : Block n) (u : State) (rs rs' : List Response),
    runMoves ms b = .next (rs, .of b') → runMoves ms' b' = .next (rs', u) →
    runMoves (ms ++ ms') b = .next (rs ++ rs', u)

/-- R122: instances share nothing: a step of one leaves every other as it is, and depends on its own state
alone (several instances as a list of states is the model's own, log entry 17). -/
def Obligations.InstancesAreIndependent : Prop :=
  ∀ (sys sys' : Instances) (j : Nat) (s : State), sys[j]? = some s →
    Instances.stepAt sys j = .next sys' →
    sys'.length = sys.length ∧ (∀ k, k ≠ j → sys'[k]? = sys[k]?) ∧
    ∃ t, step s = .next t ∧ sys'[j]? = some t

/-! ### The textual syntax -/

/-- R48: `EVALC <d>` is `EVAL <d * 1000>`, and evaluates with `t = d` exactly. -/
def Obligations.EvalcEvaluatesAtWholeDegrees : Prop :=
  ∀ d : Int, -2147483 ≤ d → d ≤ 2147483 →
    Line.toInstr (.evalc d) = Line.toInstr (.eval (d * 1000)) ∧
    (∀ n : Nat, (Line.evalc d).wellFormed n = true ∧ (Line.eval (d * 1000)).wellFormed n = true) ∧
    ∃ arg, Line.toInstr (.evalc d) = some (.eval arg) ∧ arg.toInt = d * 1000 ∧
      wholeDegrees arg = d

/-- R47 (the model's assembler, log entry 14): a well-formed textual LDCFG with the right lengths for the
program's `N`, assembled under any strategy that is a bijection, is one LDCFG whose operands LDCFG decodes
to the very values the text names. -/
def Obligations.AssembledLdcfgDecodesToItsText : Prop :=
  ∀ (n : Nat) (d : CfgDecode) (c : ConfigText), Function.Bijective (cfgDecode d) →
    c.wellFormed n = true → c.lenThr = n → c.lenHys = n → c.lenSpd = n + 1 →
    ∃ b : Bus n, Line.assemble n d (.ldcfg c) = some [HostMove.ofInstr (.ldcfg 0) b] ∧
      b.LengthsRight ∧
      (∀ i : Fin n, c.thr[i.val]? = some (b.thr d i) ∧ c.hys[i.val]? = some (b.hys d i)) ∧
      (∀ k : Fin (n + 1), c.spd[k.val]? = some (b.spd d k : Int)) ∧ b.period.toNat = c.period
end

