-- ==== Sys2Proof/Laws/Masks.lean ====
section
/-! SUPPORT. Bits, counts and prefix masks: what the latch rule and the decoders give. -/

namespace Sys2Proof.Machine

variable {n : Nat}

/-- A bit of the new mask is the latch rule of that band (R70). -/
@[simp] theorem Table.newMask_getElem (c : Table n) (t : Int) (old : Mask n) (i : Nat) (h : i < n) :
    (c.newMask t old)[i] = (c.rising t ⟨i, h⟩ || (c.falling t ⟨i, h⟩ && old[i])) := by
  simp [Table.newMask]

theorem Table.newMask_bit (c : Table n) (t : Int) (old : Mask n) (i : Fin n) :
    (c.newMask t old)[i] = (c.rising t i || (c.falling t i && old[i])) := by
  simp

@[simp] theorem prefixMask_getElem (k i : Nat) (h : i < n) :
    (prefixMask n k)[i] = decide (i < k) := by
  simp [prefixMask]

/-- Two masks with the same bits are the same. -/
theorem mask_ext {m m' : Mask n} (h : ∀ i : Fin n, m[i] = m'[i]) : m = m' := by
  ext i hi
  exact h ⟨i, hi⟩

/-- Containment of masks bounds the counts. -/
theorem popcount_mono {m m' : Mask n} (h : MaskLe m m') : popcount m ≤ popcount m' :=
  List.countP_mono_left fun i _ hi => h i hi

/-- Counting the indices below `k`. -/
theorem countP_lt (k : Nat) (hk : k ≤ n) :
    (List.finRange n).countP (fun i => decide (i.val < k)) = k := by
  have h : (List.finRange n).countP (fun i => decide (i.val < k))
      = ((List.finRange n).map Fin.val).countP (fun i => decide (i < k)) := by
    rw [List.countP_map]; rfl
  rw [h, List.map_coe_finRange_eq_range]
  induction n generalizing k with
  | zero => simp_all
  | succ n ih =>
    rw [List.range_succ, List.countP_append]
    by_cases hkn : k ≤ n
    · rw [ih k hkn (by rw [List.countP_map]; rfl)]
      simp; omega
    · have : k = n + 1 := by omega
      subst this
      have e : (List.range n).countP (fun i => decide (i < n + 1)) = n := by
        rw [List.countP_eq_length.mpr]
        · simp
        · intro a ha
          have := List.mem_range.mp ha
          simp; omega
      rw [e]; simp

/-- A count over the bands of a downward-closed test is where the test stops. -/
theorem iff_lt_countP (p : Fin n → Bool) (hp : ∀ i j : Fin n, i < j → p j = true → p i = true)
    (i : Fin n) : p i = true ↔ i.val < (List.finRange n).countP p := by
  obtain ⟨k, hk, hpk⟩ : ∃ k, k ≤ n ∧ ∀ i : Fin n, p i = decide (i.val < k) := by
    by_cases hall : ∀ i, p i = true
    · exact ⟨n, le_rfl, fun i => by simp [hall i]⟩
    · have hex : ∃ m : Nat, ∃ h : m < n, p ⟨m, h⟩ = false := by
        simp only [not_forall] at hall
        obtain ⟨j, hj⟩ := hall
        exact ⟨j.val, j.isLt, by simpa using hj⟩
      classical
      obtain ⟨hlt, hf⟩ := Nat.find_spec hex
      refine ⟨Nat.find hex, hlt.le, fun i => ?_⟩
      by_cases hi : i.val < Nat.find hex
      · have h1 := Nat.find_min hex hi
        have : p i = true := by
          by_contra h2
          exact h1 ⟨i.isLt, by simpa using h2⟩
        simp [this, hi]
      · rcases Nat.lt_or_eq_of_le (Nat.le_of_not_lt hi) with h1 | h1
        · have : p i = false := by
            by_contra h2
            have := hp ⟨Nat.find hex, hlt⟩ i h1 (by simpa using h2)
            simp [hf] at this
          simp [this, hi]
        · have : i = ⟨Nat.find hex, hlt⟩ := Fin.ext h1.symm
          rw [this, hf]; simp
  have : p = fun i => decide (i.val < k) := funext hpk
  rw [this, countP_lt k hk]
  simp

/-- A prefix mask is the mask of its count. -/
theorem IsPrefix.eq_prefixMask {m : Mask n} (h : IsPrefix m) : m = prefixMask n (popcount m) := by
  apply mask_ext
  intro i
  have := iff_lt_countP (fun i : Fin n => m[i]) h i
  rw [Bool.eq_iff_iff]
  simp only [popcount, Fin.getElem_fin, prefixMask_getElem, decide_eq_true_eq] at this ⊢
  exact this

theorem isPrefix_prefixMask (k : Nat) : IsPrefix (prefixMask n k) := by
  intro i j hij hj
  simp only [Fin.getElem_fin, prefixMask_getElem, decide_eq_true_eq] at *
  omega

theorem isPrefix_zero : IsPrefix (0 : Mask n) := by
  intro i j _ hj
  simp at hj

/-- From neighbouring pairs to any pair. -/
theorem le_of_adjacent (f : Fin n → Int)
    (h : ∀ i j : Fin n, j.val = i.val + 1 → f i ≤ f j) (i j : Fin n) (hij : i.val ≤ j.val) :
    f i ≤ f j := by
  obtain ⟨j, hj⟩ := j
  induction j with
  | zero =>
    have : i = ⟨0, hj⟩ := Fin.ext (by simpa using hij)
    rw [this]
  | succ j ih =>
    rcases Nat.lt_or_eq_of_le hij with h1 | h1
    · exact (ih (by omega) (by simp at h1 ⊢; omega)).trans (h _ _ rfl)
    · have : i = ⟨j + 1, hj⟩ := Fin.ext h1
      rw [this]

theorem Table.Valid.thr_le {c : Table n} (h : c.Valid) (i j : Fin n) (hij : i.val ≤ j.val) :
    sint c.thr[i] ≤ sint c.thr[j] :=
  le_of_adjacent (fun i => sint c.thr[i]) h.thrMono i j hij

theorem Table.HysMono.hys_le {c : Table n} (h : c.HysMono) (i j : Fin n) (hij : i.val ≤ j.val) :
    sint c.hys[i] ≤ sint c.hys[j] :=
  le_of_adjacent (fun i => sint c.hys[i]) h i j hij

/-- When a band is rising (R69). -/
theorem Table.rising_iff {c : Table n} {t : Int} {i : Fin n} :
    c.rising t i = true ↔ sint c.thr[i] ≤ t := by
  simp [Table.rising]

/-- When a band is falling (R69). -/
theorem Table.falling_iff {c : Table n} {t : Int} {i : Fin n} :
    c.falling t i = true ↔ sint c.hys[i] ≤ t := by
  simp [Table.falling]

/-- In a valid table a rising band is falling. -/
theorem Table.Valid.falling_of_rising {c : Table n} (h : c.Valid) {t : Int} {i : Fin n}
    (hr : c.rising t i = true) : c.falling t i = true := by
  have := h.hysLe i
  rw [Table.rising_iff] at hr
  exact Table.falling_iff.mpr (this.trans hr)

end Sys2Proof.Machine
end

