-- ==== Sys2Proof/Laws/Numbers.lean ====
section
/-! SUPPORT. The arithmetic primitives in the library's terms. -/

namespace Sys2Proof.Machine

/-- The rule's division toward zero is the library's truncating division. -/
theorem tdiv_eq (a : Int) {b : Int} (hb : 0 < b) : tdiv a b = a.tdiv b := by
  unfold tdiv
  split
  · rename_i h
    rw [Int.fdiv_eq_tdiv_of_nonneg h hb.le]
  · rename_i h
    rw [Int.fdiv_eq_tdiv_of_nonneg (by omega) hb.le, Int.neg_tdiv, neg_neg]

/-- Whole degrees as a truncating division of the signed operand. -/
theorem wholeDegrees_eq (arg : Word) : wholeDegrees arg = arg.toInt.tdiv 1000 :=
  tdiv_eq _ (by decide)

/-- The bounds that fix the quotient of a non-negative dividend. -/
theorem tdiv_bounds_nonneg (a : Int) (h : 0 ≤ a) :
    1000 * tdiv a 1000 ≤ a ∧ a ≤ 1000 * tdiv a 1000 + 999 := by
  rw [tdiv_eq a (by decide), Int.tdiv_eq_ediv_of_nonneg h]
  omega

/-- The bounds that fix the quotient of a negative dividend. -/
theorem tdiv_bounds_neg (a : Int) (h : a < 0) :
    1000 * tdiv a 1000 - 999 ≤ a ∧ a ≤ 1000 * tdiv a 1000 := by
  rw [tdiv_eq a (by decide)]
  have e : a.tdiv 1000 = -((-a).tdiv 1000) := by rw [Int.neg_tdiv, neg_neg]
  rw [e, Int.tdiv_eq_ediv_of_nonneg (by omega)]
  omega

/-- Both bounds at once, for linear arithmetic over a whole-degree value. -/
theorem tdiv_bounds (a : Int) :
    (0 ≤ a ∧ 1000 * tdiv a 1000 ≤ a ∧ a ≤ 1000 * tdiv a 1000 + 999) ∨
    (a < 0 ∧ 1000 * tdiv a 1000 - 999 ≤ a ∧ a ≤ 1000 * tdiv a 1000) := by
  rcases Int.lt_or_le a 0 with h | h
  · exact .inr ⟨h, tdiv_bounds_neg a h⟩
  · exact .inl ⟨h, tdiv_bounds_nonneg a h⟩

/-- A 32-bit operand's signed value is in the 32-bit range. -/
theorem sint_range (v : Word) : -2147483648 ≤ sint v ∧ sint v ≤ 2147483647 := by
  have h1 := BitVec.le_toInt v
  have h2 := BitVec.toInt_lt (x := v)
  simp only [sint]
  omega

/-- Assembling an integer of the 32-bit range and reading it back. -/
theorem sint_ofInt {v : Int} (h1 : -2147483648 ≤ v) (h2 : v ≤ 2147483647) :
    sint (BitVec.ofInt 32 v) = v := by
  simp only [sint, BitVec.toInt_ofInt]
  exact Int.bmod_eq_of_le (by omega) (by omega)

/-- The bit of a byte-reversed word. -/
theorem bswap32_getLsbD (v : Word) (i : Nat) (h : i < 32) :
    (bswap32 v).getLsbD i = v.getLsbD (8 * (3 - i / 8) + i % 8) := by
  have e : (bswap32 v).getLsbD i = BitVec.getLsbD (w := 8 + 8 + 8 + 8)
      (v.extractLsb' 0 8 ++ v.extractLsb' 8 8 ++ v.extractLsb' 16 8 ++ v.extractLsb' 24 8) i := rfl
  simp only [e, BitVec.getLsbD_append, BitVec.getLsbD_extractLsb']
  split <;> [skip; split <;> [skip; split]] <;>
  · rw [decide_eq_true (by omega), Bool.true_and]
    congr 1
    omega

/-- Reversing the bytes twice gives the word back. -/
theorem bswap32_bswap32 (v : Word) : bswap32 (bswap32 v) = v := by
  apply BitVec.eq_of_getLsbD_eq
  intro i hi
  rw [bswap32_getLsbD _ _ hi, bswap32_getLsbD _ _ (by omega)]
  congr 1
  omega

end Sys2Proof.Machine
end

