-- ==== Sys2Proof/Laws/State.lean ====
section
/-! SUPPORT. One lemma per field per state update, so that no proof unfolds a record update. -/

namespace Sys2Proof.Machine

variable {n : Nat} (s : Block n)

@[simp] theorem Block.refuse_cfgValid (st : Status) : (s.refuse st).cfgValid = s.cfgValid := rfl
@[simp] theorem Block.refuse_table (st : Status) : (s.refuse st).table = s.table := rfl
@[simp] theorem Block.refuse_mask (st : Status) : (s.refuse st).mask = s.mask := rfl
@[simp] theorem Block.refuse_params (st : Status) : (s.refuse st).params = s.params := rfl
@[simp] theorem Block.refuse_bus (st : Status) : (s.refuse st).bus = s.bus := rfl
@[simp] theorem Block.refuse_host (st : Status) : (s.refuse st).host = s.host := rfl
@[simp] theorem Block.refuse_response (st : Status) : (s.refuse st).response = some { status := st, result := none } := rfl
@[simp] theorem Block.refuse_draws (st : Status) : (s.refuse st).draws = s.draws := rfl

@[simp] theorem Block.respondOk_cfgValid : s.respondOk.cfgValid = s.cfgValid := rfl
@[simp] theorem Block.respondOk_table : s.respondOk.table = s.table := rfl
@[simp] theorem Block.respondOk_mask : s.respondOk.mask = s.mask := rfl
@[simp] theorem Block.respondOk_params : s.respondOk.params = s.params := rfl
@[simp] theorem Block.respondOk_bus : s.respondOk.bus = s.bus := rfl
@[simp] theorem Block.respondOk_host : s.respondOk.host = s.host := rfl
@[simp] theorem Block.respondOk_response : s.respondOk.response = some { status := .ok, result := none } := rfl
@[simp] theorem Block.respondOk_draws : s.respondOk.draws = s.draws := rfl

@[simp] theorem Block.respondEval_cfgValid (e : Evaluation) : (s.respondEval e).cfgValid = s.cfgValid := rfl
@[simp] theorem Block.respondEval_table (e : Evaluation) : (s.respondEval e).table = s.table := rfl
@[simp] theorem Block.respondEval_mask (e : Evaluation) : (s.respondEval e).mask = s.mask := rfl
@[simp] theorem Block.respondEval_params (e : Evaluation) : (s.respondEval e).params = s.params := rfl
@[simp] theorem Block.respondEval_bus (e : Evaluation) : (s.respondEval e).bus = s.bus := rfl
@[simp] theorem Block.respondEval_host (e : Evaluation) : (s.respondEval e).host = s.host := rfl
@[simp] theorem Block.respondEval_response (e : Evaluation) : (s.respondEval e).response = some { status := .ok, result := some e } := rfl
@[simp] theorem Block.respondEval_draws (e : Evaluation) : (s.respondEval e).draws = s.draws := rfl

@[simp] theorem Block.writeMask_cfgValid (m : Mask n) : (s.writeMask m).cfgValid = s.cfgValid := rfl
@[simp] theorem Block.writeMask_table (m : Mask n) : (s.writeMask m).table = s.table := rfl
@[simp] theorem Block.writeMask_mask (m : Mask n) : (s.writeMask m).mask = m := rfl
@[simp] theorem Block.writeMask_params (m : Mask n) : (s.writeMask m).params = s.params := rfl
@[simp] theorem Block.writeMask_bus (m : Mask n) : (s.writeMask m).bus = s.bus := rfl
@[simp] theorem Block.writeMask_host (m : Mask n) : (s.writeMask m).host = s.host := rfl
@[simp] theorem Block.writeMask_response (m : Mask n) : (s.writeMask m).response = s.response := rfl
@[simp] theorem Block.writeMask_draws (m : Mask n) : (s.writeMask m).draws = s.draws := rfl

@[simp] theorem Block.commit_cfgValid (c : Table n) : (s.commit c).cfgValid = true := rfl
@[simp] theorem Block.commit_table (c : Table n) : (s.commit c).table = c := rfl
@[simp] theorem Block.commit_mask (c : Table n) : (s.commit c).mask = s.mask := rfl
@[simp] theorem Block.commit_params (c : Table n) : (s.commit c).params = s.params := rfl
@[simp] theorem Block.commit_bus (c : Table n) : (s.commit c).bus = s.bus := rfl
@[simp] theorem Block.commit_host (c : Table n) : (s.commit c).host = s.host := rfl
@[simp] theorem Block.commit_response (c : Table n) : (s.commit c).response = s.response := rfl
@[simp] theorem Block.commit_draws (c : Table n) : (s.commit c).draws = s.draws := rfl

@[simp] theorem Block.present_cfgValid (b : Bus n) (rest : List (HostMove n)) : (s.present b rest).cfgValid = s.cfgValid := rfl
@[simp] theorem Block.present_table (b : Bus n) (rest : List (HostMove n)) : (s.present b rest).table = s.table := rfl
@[simp] theorem Block.present_mask (b : Bus n) (rest : List (HostMove n)) : (s.present b rest).mask = s.mask := rfl
@[simp] theorem Block.present_params (b : Bus n) (rest : List (HostMove n)) : (s.present b rest).params = s.params := rfl
@[simp] theorem Block.present_bus (b : Bus n) (rest : List (HostMove n)) : (s.present b rest).bus = b := rfl
@[simp] theorem Block.present_host (b : Bus n) (rest : List (HostMove n)) : (s.present b rest).host = rest := rfl
@[simp] theorem Block.present_response (b : Bus n) (rest : List (HostMove n)) : (s.present b rest).response = s.response := rfl
@[simp] theorem Block.present_draws (b : Bus n) (rest : List (HostMove n)) : (s.present b rest).draws = s.draws := rfl

@[simp] theorem Block.wait_cfgValid : s.wait.cfgValid = s.cfgValid := rfl
@[simp] theorem Block.wait_table : s.wait.table = s.table := rfl
@[simp] theorem Block.wait_mask : s.wait.mask = s.mask := rfl
@[simp] theorem Block.wait_params : s.wait.params = s.params := rfl
@[simp] theorem Block.wait_bus : s.wait.bus = s.bus := rfl
@[simp] theorem Block.wait_host : s.wait.host = s.host := rfl
@[simp] theorem Block.wait_response : s.wait.response = none := rfl
@[simp] theorem Block.wait_draws : s.wait.draws = s.draws := rfl

@[simp] theorem Block.applyReset_cfgValid (rest : List (HostMove n)) : (s.applyReset rest).cfgValid = false := rfl
@[simp] theorem Block.applyReset_table (rest : List (HostMove n)) : (s.applyReset rest).table = unloadedTable n s.draws := rfl
@[simp] theorem Block.applyReset_mask (rest : List (HostMove n)) : (s.applyReset rest).mask = s.params.initMask := rfl
@[simp] theorem Block.applyReset_params (rest : List (HostMove n)) : (s.applyReset rest).params = s.params := rfl
@[simp] theorem Block.applyReset_bus (rest : List (HostMove n)) : (s.applyReset rest).bus = s.bus := rfl
@[simp] theorem Block.applyReset_host (rest : List (HostMove n)) : (s.applyReset rest).host = rest := rfl
@[simp] theorem Block.applyReset_response (rest : List (HostMove n)) : (s.applyReset rest).response = none := rfl
@[simp] theorem Block.applyReset_draws (rest : List (HostMove n)) : (s.applyReset rest).draws = s.draws + 1 := rfl

variable (p : Params n)

@[simp] theorem Block.resetWith_cfgValid : (Block.resetWith p).cfgValid = false := rfl
@[simp] theorem Block.resetWith_table : (Block.resetWith p).table = unloadedTable n 0 := rfl
@[simp] theorem Block.resetWith_mask : (Block.resetWith p).mask = p.initMask := rfl
@[simp] theorem Block.resetWith_params : (Block.resetWith p).params = p := rfl
@[simp] theorem Block.resetWith_bus : (Block.resetWith p).bus = idleBus n := rfl
@[simp] theorem Block.resetWith_host : (Block.resetWith p).host = [] := rfl
@[simp] theorem Block.resetWith_response : (Block.resetWith p).response = none := rfl
@[simp] theorem Block.resetWith_draws : (Block.resetWith p).draws = 1 := rfl

theorem State.reset_eq : State.reset = .of (Block.resetWith (Params.default Config.N)) := rfl

/-- Two instances of the same `N` are the same state exactly when they are equal. -/
@[simp] theorem State.of_inj {b b' : Block n} : State.of b = State.of b' ↔ b = b' := by
  simp [State.of]

end Sys2Proof.Machine
end

