-- ==== Sys2Proof/Laws/Commands.lean ====
section
/-! SUPPORT. What each shared operation and each command can do, said once: the checks of LDCFG, the two
outcomes of EVAL, and what no command touches. -/

namespace Sys2Proof.Machine

variable {n : Nat}

/-- All checks of LDCFG pass exactly when none of the four conditions holds (R57 to R60). -/
theorem Bus.configError_eq_none_iff (d : CfgDecode) (b : Bus n) :
    b.configError d = none ↔
      b.LengthsRight ∧ ¬ b.Decreasing d ∧ ¬ b.HysteresisAbove d ∧ ¬ b.SpeedAbove d := by
  unfold Bus.configError
  split_ifs with h1 h2 h3 h4
  · exact ⟨nofun, fun h => absurd h2 h.2.1⟩
  · exact ⟨nofun, fun h => absurd h3 h.2.2.1⟩
  · exact ⟨nofun, fun h => absurd h4 h.2.2.2⟩
  · exact ⟨fun _ => ⟨h1, h2, h3, h4⟩, fun _ => rfl⟩
  · exact ⟨nofun, fun h => absurd h.1 h1⟩

/-- A failing check reports one of the four configuration errors. -/
theorem Bus.configError_eq_some {d : CfgDecode} {b : Bus n} {e : Status}
    (h : b.configError d = some e) :
    e = .invalidLength ∨ e = .nonMonotonic ∨ e = .invalidHysteresis ∨ e = .invalidSpeed := by
  unfold Bus.configError at h
  split_ifs at h <;> simp_all

/-- The table a passing bus commits is valid (R16). -/
theorem Bus.toTable_valid {d : CfgDecode} {b : Bus n} (h : b.configError d = none) :
    (b.toTable d).Valid := by
  obtain ⟨-, h2, h3, h4⟩ := (Bus.configError_eq_none_iff d b).mp h
  simp only [Bus.Decreasing, Bus.HysteresisAbove, Bus.SpeedAbove, not_exists, not_and, not_lt,
    gt_iff_lt, Bus.thr, Bus.hys, Bus.spd] at h2 h3 h4
  refine ⟨fun i j hij => ?_, fun i => ?_, fun k => ?_, ?_⟩
  · simpa [Bus.toTable] using h2 i j hij
  · simpa [Bus.toTable] using h3 i
  · have := h4 k
    simp [Bus.toTable, uint, Nat.shiftRight_zero] at this ⊢
    omega
  · have hp := b.period.isLt
    simp only [Bus.toTable, Bus.dpp, uint, fdiv, BitVec.toNat_ofNat]
    omega

/-- Everything LDCFG can do: refuse as locked, refuse with a configuration error, or commit. -/
theorem Block.loadConfig_cases (s : Block n) :
    (s.cfgValid = true ∧ s.loadConfig = s.refuse .locked) ∨
    (s.cfgValid = false ∧ ∃ e, s.bus.configError s.params.cfgDecode = some e ∧
      s.loadConfig = s.refuse e) ∨
    (s.cfgValid = false ∧ s.bus.configError s.params.cfgDecode = none ∧
      s.loadConfig = (s.commit (s.bus.toTable s.params.cfgDecode)).respondOk) := by
  unfold Block.loadConfig
  cases hv : s.cfgValid
  · right
    cases he : s.bus.configError s.params.cfgDecode <;> simp
  · left
    simp

/-- EVAL in mode CONFIGURED. -/
theorem Block.evaluate_configured {s : Block n} (h : s.cfgValid = true) (arg : Word) :
    s.evaluate arg =
      (s.writeMask (s.table.newMask (wholeDegrees arg) s.mask)).respondEval
        (s.table.evaluation
          (Decoder.tier s.params.decoder (s.table.newMask (wholeDegrees arg) s.mask))) := by
  simp [Block.evaluate, h]

/-- EVAL in mode UNCONFIGURED. -/
theorem Block.evaluate_unconfigured {s : Block n} (h : s.cfgValid = false) (arg : Word) :
    s.evaluate arg = s.refuse .notConfigured := by
  simp [Block.evaluate, h]

/-- The four meanings as transformers of an instance. -/
theorem exec_nop (a : BitVec 32) (b : Block n) : exec (.nop a) (.of b) = .next (.of b.respondOk) := rfl
theorem exec_ldcfg (a : BitVec 32) (b : Block n) :
    exec (.ldcfg a) (.of b) = .next (.of b.loadConfig) := rfl
theorem exec_init (a : BitVec 32) (b : Block n) :
    exec (.init a) (.of b) = .next (.of (b.writeMask b.params.initMask).respondOk) := rfl
theorem exec_eval (a : BitVec 32) (b : Block n) :
    exec (.eval a) (.of b) = .next (.of (b.evaluate a)) := rfl

/-- What no command writes: the number of bands, the parameters and the host's side. -/
theorem exec_frame {i : Instr} {b : Block n} {t : State} (h : exec i (.of b) = .next t) :
    ∃ b' : Block n, t = .of b' ∧
      b'.params = b.params ∧ b'.bus = b.bus ∧ b'.host = b.host ∧ b'.draws = b.draws := by
  cases i with
  | nop a => rw [exec_nop] at h; cases h; exact ⟨_, rfl, rfl, rfl, rfl, rfl⟩
  | init a => rw [exec_init] at h; cases h; exact ⟨_, rfl, rfl, rfl, rfl, rfl⟩
  | ldcfg a =>
    rw [exec_ldcfg] at h; cases h
    refine ⟨_, rfl, ?_⟩
    obtain ⟨-, e⟩ | ⟨-, _, -, e⟩ | ⟨-, -, e⟩ := b.loadConfig_cases <;> simp [e]
  | eval a =>
    rw [exec_eval] at h; cases h
    refine ⟨_, rfl, ?_⟩
    cases hv : b.cfgValid
    · simp [Block.evaluate_unconfigured hv]
    · simp [Block.evaluate_configured hv]

/-- Everything a step can do. -/
theorem step_cases {b : Block n} {t : State} (h : step (.of b) = .next t) :
    (b.host = [] ∧ t = .of b.wait) ∨
    (∃ w bus rest, b.host = .command w bus :: rest ∧
      exec (decode w) (.of (b.present bus rest)) = .next t) ∨
    (∃ rest, b.host = .reset :: rest ∧ t = .of (b.applyReset rest)) := by
  unfold step at h
  split at h
  · cases h; exact .inl ⟨‹_›, rfl⟩
  · exact .inr (.inl ⟨_, _, _, ‹_›, h⟩)
  · cases h; exact .inr (.inr ⟨_, ‹_›, rfl⟩)
  · cases h

/-- A step keeps the number of bands and the parameters (R83), and takes one move from the queue. -/
theorem step_frame {b : Block n} {t : State} (h : step (.of b) = .next t) :
    ∃ b' : Block n, t = .of b' ∧ b'.params = b.params ∧ b'.host = b.host.tail := by
  obtain ⟨hh, rfl⟩ | ⟨w, bus, rest, hh, h⟩ | ⟨rest, hh, rfl⟩ := step_cases h
  · exact ⟨_, rfl, rfl, by simp [hh]⟩
  · obtain ⟨b', rfl, h1, -, h3, -⟩ := exec_frame h
    exact ⟨b', rfl, h1, by simp [h3, hh]⟩
  · exact ⟨_, rfl, rfl, by simp [hh]⟩

/-- The prefix mask of `k` has `k` bits set (R97). -/
theorem popcount_prefixMask {k : Nat} (h : k ≤ n) : popcount (prefixMask n k) = k := by
  have e : (fun i : Fin n => (prefixMask n k)[i]) = fun i : Fin n => decide (i.val < k) := by
    funext i; simp
  rw [popcount, e, countP_lt k h]

/-- `TIER_W` holds every tier (R5, R44). -/
theorem lt_two_pow_tierWidth (n : Nat) : n < 2 ^ tierWidth n := by
  unfold tierWidth
  cases h : (List.range (n + 1)).find? fun k => decide (n + 1 ≤ 2 ^ k) with
  | none => exact Nat.lt_two_pow_self
  | some k => simpa using List.find?_some h

/-- The tier field of a result holds the decoder's count exactly (R73). -/
@[simp] theorem Table.evaluation_tier (c : Table n) (k : Fin (n + 1)) :
    (c.evaluation k).tier.toNat = k.val := by
  have h1 := lt_two_pow_tierWidth n
  have h2 := k.isLt
  simp only [Table.evaluation, TierField.toNat, BitVec.toNat_ofNat]
  exact Nat.mod_eq_of_lt (by omega)

end Sys2Proof.Machine
end

