-- ==== Sys2Proof/Laws/Decoding.lean ====
section
/-! SUPPORT. The decoding strategies: when one is a bijection, and its inverse. -/

namespace Sys2Proof.Machine

/-- The word a listed strategy decodes a word to, when no pair names it. -/
theorem cfgDecode_listed_unnamed {pairs : List (Word × Word)} {w : Word}
    (h : ∀ q ∈ pairs, q.1 ≠ w) : cfgDecode (.listed pairs) w = w := by
  have : pairs.lookup w = none := List.lookup_eq_none_iff.mpr fun q hq => by simpa using (h q hq).symm
  simp [cfgDecode, this]

/-- The assembler's raw word decodes to the word it stands for (R47). -/
theorem cfgDecode_cfgEncode {d : CfgDecode} (h : CfgDecode.invertible d = true) (w : Word) :
    cfgDecode d (cfgEncode d w) = w := by
  cases d with
  | ident => rfl
  | bswap32 => exact bswap32_bswap32 w
  | listed pairs =>
    rw [cfgEncode]
    split
    · rename_i q hq
      simpa using List.find?_some hq
    · rename_i hq
      apply cfgDecode_listed_unnamed
      rintro p hp rfl
      simp only [CfgDecode.invertible, List.all_eq_true, List.any_eq_true] at h
      obtain ⟨q, hq', e⟩ := h p hp
      exact List.find?_eq_none.mp hq q hq' e

/-- The assembler's test for a bijection is exact (R47). -/
theorem CfgDecode.invertible_iff (d : CfgDecode) :
    CfgDecode.invertible d = true ↔ Function.Bijective (cfgDecode d) := by
  have : Finite Word := Finite.of_injective BitVec.toFin fun _ _ h => BitVec.eq_of_toFin_eq h
  constructor
  · intro h
    have surj : Function.Surjective (cfgDecode d) := fun w => ⟨_, cfgDecode_cfgEncode h w⟩
    exact ⟨Finite.injective_iff_surjective.mpr surj, surj⟩
  · rintro ⟨-, surj⟩
    cases d with
    | ident => rfl
    | bswap32 => rfl
    | listed pairs =>
      simp only [CfgDecode.invertible, List.all_eq_true, List.any_eq_true, decide_eq_true_eq]
      intro p hp
      obtain ⟨w, hw⟩ := surj p.1
      by_cases named : ∃ q ∈ pairs, q.1 = w
      · obtain ⟨q, hq, rfl⟩ := named
        exact ⟨q, hq, hw⟩
      · rw [cfgDecode_listed_unnamed fun q hq e => named ⟨q, hq, e⟩] at hw
        exact absurd ⟨p, hp, hw.symm⟩ named

end Sys2Proof.Machine
end

