-- ==== Sys2Proof/Laws/PerInstr.lean ====
section
/-! SUPPORT. The family Encoding: each command's word carries its opcode and its `arg` field where
30_encoding.md rule R38 puts them. -/

namespace Sys2Proof.Laws.Encoding

/-- The command is well formed, and its word's fields are its opcode and its `arg`. -/
def Statement (i : Instr) : Prop :=
  i.wellFormed = true ∧ CmdWord.op (encode i) = i.opcode ∧ CmdWord.arg (encode i) = i.argField

/-- The bits of a joined word. -/
theorem getLsbD_joinFields (o : BitVec 2) (a : BitVec 32) (k : Nat) :
    (joinFields o a).getLsbD k = if k < 32 then a.getLsbD k else o.getLsbD (k - 32) := by
  rw [joinFields, BitVec.getLsbD_cast, BitVec.getLsbD_append]

theorem op_joinFields (o : BitVec 2) (a : BitVec 32) : CmdWord.op (joinFields o a) = o := by
  apply BitVec.eq_of_getLsbD_eq
  intro k hk
  rw [CmdWord.op, BitVec.getLsbD_extractLsb', getLsbD_joinFields]
  simp [hk]

theorem arg_joinFields (o : BitVec 2) (a : BitVec 32) : CmdWord.arg (joinFields o a) = a := by
  apply BitVec.eq_of_getLsbD_eq
  intro k hk
  rw [CmdWord.arg, BitVec.getLsbD_extractLsb', getLsbD_joinFields]
  simp [hk]

/-- A word is its two fields. -/
theorem joinFields_op_arg (w : CmdWord) : joinFields (CmdWord.op w) (CmdWord.arg w) = w := by
  apply BitVec.eq_of_getLsbD_eq
  intro k hk
  rw [getLsbD_joinFields, CmdWord.op, CmdWord.arg]
  split
  · simp [*]
  · have h2 : k - 32 < 2 := by omega
    have h3 : 32 + (k - 32) = k := by omega
    simp [h2, h3]

theorem nop (arg : BitVec 32) : Statement (.nop arg) := ⟨rfl, op_joinFields _ _, arg_joinFields _ _⟩
theorem ldcfg (arg : BitVec 32) : Statement (.ldcfg arg) := ⟨rfl, op_joinFields _ _, arg_joinFields _ _⟩
theorem init (arg : BitVec 32) : Statement (.init arg) := ⟨rfl, op_joinFields _ _, arg_joinFields _ _⟩
theorem eval (arg : BitVec 32) : Statement (.eval arg) := ⟨rfl, op_joinFields _ _, arg_joinFields _ _⟩

end Sys2Proof.Laws.Encoding
end

