-- ==== Sys2Proof/Laws/Runs.lean ====
section
/-! SUPPORT. Steps and runs, one move at a time. -/

namespace Sys2Proof.Machine

variable {n : Nat}

/-- A step on a presented command. -/
theorem step_command (b : Block n) (w : CmdWord) (bus : Bus n) (ms : List (HostMove n)) :
    step (.of { b with host := .command w bus :: ms }) =
      exec (decode w) (.of { b with host := ms, bus := bus }) :=
  rfl

/-- A step on a reset mark. -/
theorem step_reset (b : Block n) (ms : List (HostMove n)) :
    step (.of { b with host := .reset :: ms }) = .next (.of (b.applyReset ms)) := rfl

/-- Putting in place the queue that is there changes nothing. -/
theorem withHost_eq {b : Block n} {ms : List (HostMove n)} (h : b.host = ms) :
    { b with host := ms } = b := by
  subst h; rfl

/-- The run of an empty stream. -/
theorem runMoves_nil (b : Block n) : runMoves [] b = .next ([], .of { b with host := [] }) := rfl

/-- A run whose first step answers goes on with the rest. -/
theorem runMoves_cons {m : HostMove n} {ms : List (HostMove n)} {b b' : Block n} {u : State}
    {rs : List Response} (h1 : step (.of { b with host := m :: ms }) = .next (.of b'))
    (h2 : runMoves ms b' = .next (rs, u)) :
    runMoves (m :: ms) b = .next (b'.response.toList ++ rs, u) := by
  obtain ⟨b'', e, -, hh⟩ := step_frame h1
  obtain rfl := State.of_inj.mp e
  have queue := withHost_eq (ms := ms) hh
  rw [runMoves, queue] at h2
  simp only [runMoves, List.length_cons, run, h1, h2]

/-- A run that ends took a first step and then ran the rest. -/
theorem runMoves_cons_cases {m : HostMove n} {ms : List (HostMove n)} {b : Block n} {u : State}
    {rs : List Response} (h : runMoves (m :: ms) b = .next (rs, u)) :
    ∃ (b' : Block n) (rs' : List Response), step (.of { b with host := m :: ms }) = .next (.of b') ∧
      runMoves ms b' = .next (rs', u) ∧ rs = b'.response.toList ++ rs' := by
  rw [runMoves, List.length_cons, run] at h
  split at h
  · cases h
  · cases h
  · rename_i t ht
    obtain ⟨b', rfl, -, hh⟩ := step_frame ht
    have queue := withHost_eq (ms := ms) hh
    split at h
    · cases h
    · cases h
    · rename_i rs' v hv
      cases h
      exact ⟨b', rs', ht, by rw [runMoves, queue]; exact hv, rfl⟩

/-- A run keeps the number of bands and the parameters, and leaves no move pending. -/
theorem runMoves_frame {ms : List (HostMove n)} {b : Block n} {u : State} {rs : List Response}
    (h : runMoves ms b = .next (rs, u)) :
    ∃ b' : Block n, u = .of b' ∧ b'.params = b.params ∧ b'.host = [] := by
  induction ms generalizing b rs with
  | nil => rw [runMoves_nil] at h; cases h; exact ⟨_, rfl, rfl, rfl⟩
  | cons m ms ih =>
    obtain ⟨b1, rs1, h1, h2, -⟩ := runMoves_cons_cases h
    obtain ⟨b', e, h3, h4⟩ := ih h2
    obtain ⟨b2, e2, h5, -⟩ := step_frame h1
    obtain rfl := State.of_inj.mp e2
    exact ⟨b', e, h3.trans h5, h4⟩

/-- No command reads the host's queue: it does the same with another queue behind it. -/
theorem exec_otherQueue {i : Instr} {b b' : Block n} (h : exec i (.of b) = .next (.of b'))
    (q : List (HostMove n)) :
    exec i (.of { b with host := q }) = .next (.of { b' with host := q }) := by
  cases i with
  | nop a => rw [exec_nop] at h ⊢; cases h; rfl
  | init a => rw [exec_init] at h ⊢; cases h; rfl
  | ldcfg a =>
    rw [exec_ldcfg] at h ⊢
    cases h
    simp only [Block.loadConfig]
    split
    · rfl
    · split <;> rfl
  | eval a =>
    rw [exec_eval] at h ⊢
    cases h
    simp only [Block.evaluate]
    split <;> rfl

end Sys2Proof.Machine
end

