-- ==== Sys2Proof/Tests/Slice0.lean ====
section
/-! SUPPORT. Tests: expected results are the spec's own vectors (95_test_vectors.md) or hand work from its
rules; and for each statement with hypotheses a named witness that meets them. -/

namespace Sys2Proof.Tests

open Sys2Proof Sys2Proof.Machine

/-! ### Small states -/

/-- `M` of 95_test_vectors.md. -/
def top : Int := 2147483647

/-- CFG-A of 95_test_vectors.md, the base most vectors change. -/
def cfgA : ConfigText where
  lenThr := 8
  lenHys := 8
  lenSpd := 9
  thr    := [40, 45, 50, 55, 60, 65, 70, 75]
  hys    := [37, 42, 47, 52, 57, 62, 67, 72]
  spd    := [0, 20, 30, 40, 50, 60, 75, 90, 100]
  period := 40000

/-- CFG-G of V-D20: `HysMono` fails. -/
def cfgG : ConfigText :=
  { cfgA with
    thr := [40, 60, top, top, top, top, top, top]
    hys := [35, 20, top, top, top, top, top, top]
    spd := [0, 30, 100, 100, 100, 100, 100, 100, 100]
    period := 20000 }

/-- CFG-N of section 2.8: thresholds below zero. -/
def cfgN : ConfigText :=
  { cfgA with
    thr := [-10, -3, 0, 5, 10, 20, 30, 40]
    hys := [-12, -5, -2, 3, 8, 18, 28, 38]
    spd := [0, 10, 20, 30, 40, 50, 60, 80, 100]
    period := 1000000 }

/-- V-D4c: no band has a window. -/
def cfgFlat : ConfigText :=
  { cfgA with thr := [50, 50, 50, 50, 50, 50, 50, 50], hys := [50, 50, 50, 50, 50, 50, 50, 50] }

/-- V-D21: `SpdMono` fails. -/
def cfgFall : ConfigText := { cfgA with spd := [50, 0, 30, 40, 50, 60, 75, 90, 100] }

/-- The first band has the lowest hysteresis threshold (V-D5c). -/
def cfgStuck : ConfigText :=
  { cfgA with hys := [-2147483648, 42, 47, 52, 57, 62, 67, 72] }

/-- `.param CFG_DECODE=IDENT`, the vectors' convention. -/
def identParams : Params 8 := { cfgDecode := .ident, initMask := 0, decoder := .popcount }

/-- Reset, with this configuration on the bus. -/
def offered (c : ConfigText) : Block 8 :=
  { Block.resetWith identParams with bus := ConfigText.toBus 8 .ident c }

/-- This configuration loaded, with this mask. -/
def loaded (c : ConfigText) (m : Mask 8) : Block 8 :=
  { Block.resetWith identParams with
    cfgValid := true
    table := Bus.toTable .ident (ConfigText.toBus 8 .ident c)
    mask := m }

/-- A loaded state whose table is valid. -/
theorem loaded_valid {c : ConfigText} (m : Mask 8)
    (h : Bus.configError .ident (ConfigText.toBus 8 .ident c) = none) : (loaded c m).table.Valid :=
  Bus.toTable_valid h

theorem cfgA_valid (m : Mask 8) : (loaded cfgA m).table.Valid := loaded_valid m (by decide)

/-- What a step leaves: response, `CFG_VALID`, `MASK` as a number. -/
def seen : Host.Outcome State Fault Refusal → Option (Option Response × Bool × Nat)
  | .next t => some (t.block.response, t.block.cfgValid, t.block.mask.toNat)
  | .fault _ => none
  | .refused _ => none

/-- A bare status. -/
def bare (st : Status) : Option Response := some { status := st, result := none }

/-- `OK / duty / tier / speed`, as the vectors write it. -/
def result (duty tier speed : Nat) : Option Response :=
  some { status := .ok,
         result := some { duty := BitVec.ofNat 32 duty, tier := { width := 4, bits := BitVec.ofNat 4 tier },
                          speed := BitVec.ofNat 7 speed } }

/-- One EVAL at `T` millidegrees. -/
def evalAt (c : ConfigText) (m : Mask 8) (T : Int) : Option (Option Response × Bool × Nat) :=
  seen (exec (.eval (BitVec.ofInt 32 T)) (.of (loaded c m)))

/-- What an LDCFG of this configuration answers from reset. -/
def loadStatus (c : ConfigText) : Option (Option Response × Bool × Nat) :=
  seen (exec (.ldcfg 0) (.of (offered c)))

/-! ### Decoding: words written bit by bit from R38 and R39 -/

theorem test_decode_nop :
    decode 0b00_00010010001101000101011001111000#34 = .nop 0x12345678#32 := by decide

theorem test_decode_ldcfg : decode 0b01_00000000000000000000000000000000#34 = .ldcfg 0#32 := by decide

theorem test_decode_init :
    decode 0b10_11011110101011011011111011101111#34 = .init 0xDEADBEEF#32 := by decide

theorem test_decode_eval_42000 :
    decode 0b11_00000000000000001010010000010000#34 = .eval 42000#32 := by decide

theorem test_decode_eval_lowest :
    decode 0b11_10000000000000000000000000000000#34 = .eval (BitVec.ofInt 32 (-2147483648)) := by decide

/-- The encoder against R49 and the vectors V-D15d, V-D16a. -/
theorem test_encode :
    encode (.init 0xDEADBEEF#32) = 0x2DEADBEEF#34 ∧
    encode (.eval (BitVec.ofInt 32 (-20000))) = 0x3FFFFB1E0#34 := by decide

/-- The table's rows through `decodeTableWord`, with the six padding bits of a 40-bit carrier ignored. -/
theorem test_decodeTableWord :
    decodeTableWord 40 0x000000000 = some (.nop 0) ∧
    decodeTableWord 40 0x100000000 = some (.ldcfg 0) ∧
    decodeTableWord 40 0x200000000 = some (.init 0) ∧
    decodeTableWord 40 0xFF0000A410 = some (.eval 42000) := by decide

/-- Each row runs as the first command after reset (V-D15a, V-D15b, V-D15e; LDCFG over an idle bus, whose
lengths are 0, V-D3e). -/
theorem test_first_command :
    seen (step (State.reset.withFetchWord 40 0x000000000)) = some (bare .ok, false, 0) ∧
    seen (step (State.reset.withFetchWord 40 0x100000000)) = some (bare .invalidLength, false, 0) ∧
    seen (step (State.reset.withFetchWord 40 0x200000000)) = some (bare .ok, false, 0) ∧
    seen (step (State.reset.withFetchWord 40 0x30000C350)) = some (bare .notConfigured, false, 0) := by
  decide

/-! ### LDCFG -/

/-- V-D3a, V-D3d, V-D4b, V-D4e, V-D5a, V-D6b, V-D6d, V-D7b: each refusal, the priority, the signed reading
of thresholds and the unsigned one of speeds; V-D8b: the lock comes first. -/
theorem test_ldcfg_refusals :
    [loadStatus { cfgA with lenSpd := 8 },
      loadStatus { cfgA with lenThr := 200 },
      loadStatus { cfgA with thr := [40, 45, 50, 55, 60, 65, 70, 69], hys := [37, 42, 47, 52, 57, 62, 67, 60] },
      loadStatus { cfgA with thr := [0, 1, 2, 3, 4, 5, 6, -2147483648] },
      loadStatus { cfgA with hys := [37, 42, 51, 52, 57, 62, 67, 72] },
      loadStatus { cfgA with spd := [101, 20, 30, 40, 50, 60, 75, 90, 100] },
      loadStatus { cfgA with spd := [0, 20, 30, 40, 4294967295, 60, 75, 90, 100] },
      loadStatus { cfgA with hys := [37, 42, 51, 52, 57, 62, 67, 72], spd := [0, 20, 30, 40, 50, 60, 75, 90, 101] },
      seen (exec (.ldcfg 0) (.of { loaded cfgA 0 with bus := idleBus 8 }))] =
    [some (bare .invalidLength, false, 0),
      some (bare .invalidLength, false, 0),
      some (bare .nonMonotonic, false, 0),
      some (bare .nonMonotonic, false, 0),
      some (bare .invalidHysteresis, false, 0),
      some (bare .invalidSpeed, false, 0),
      some (bare .invalidSpeed, false, 0),
      some (bare .invalidHysteresis, false, 0),
      some (bare .locked, true, 0)] := by
  decide

/-- V-D10: byte-swapped raw words and a native period load CFG-A with `DPP = 400`; V-D9d, V-D9f: the floor
of `period / 100`; V-D5d: hysteresis thresholds out of order are accepted. -/
theorem test_ldcfg_loads :
    Bus.toTable .bswap32
      { lenThr := 8, lenHys := 8, lenSpd := 9
        thrRaw := #v[0x28000000, 0x2D000000, 0x32000000, 0x37000000, 0x3C000000, 0x41000000,
          0x46000000, 0x4B000000]
        hysRaw := #v[0x25000000, 0x2A000000, 0x2F000000, 0x34000000, 0x39000000, 0x3E000000,
          0x43000000, 0x48000000]
        spdRaw := #v[0x00000000, 0x14000000, 0x1E000000, 0x28000000, 0x32000000, 0x3C000000,
          0x4B000000, 0x5A000000, 0x64000000]
        period := 40000 } =
      { thr := #v[40, 45, 50, 55, 60, 65, 70, 75], hys := #v[37, 42, 47, 52, 57, 62, 67, 72]
        spd := #v[0, 20, 30, 40, 50, 60, 75, 90, 100], period := 40000, dpp := 400 } ∧
    (loaded { cfgA with period := 199 } 0).table.dpp = 1 ∧
    (loaded { cfgA with period := 4294967295 } 0).table.dpp = 42949672 ∧
    loadStatus { cfgA with hys := [35, 20, 47, 52, 57, 62, 67, 72] } = some (bare .ok, true, 0) := by
  decide

/-! ### EVAL -/

/-- V-D11b, V-D11d, V-D11g, V-D11h, V-D12a, V-D12d, V-D12f, V-D12j, V-D12o, V-D16d, V-D16f: the latch, the
tier, the speed and the duty. -/
theorem test_eval_vectors :
    [evalAt cfgA 0b00000000 37000,
      evalAt cfgA 0b00000000 40000,
      evalAt cfgA 0b00000001 37000,
      evalAt cfgA 0b00000001 36999,
      evalAt cfgA 0b00000000 52300,
      evalAt cfgA 0b00000111 46999,
      evalAt cfgA 0b00000000 80000,
      evalAt cfgA 0b11111111 57000,
      evalAt cfgA 0b00000101 48000,
      evalAt cfgN 0b00000001 (-3999),
      evalAt cfgN 0b00000111 (-2999)] =
    [some (result 0 0 0, true, 0b00000000),
      some (result 8000 1 20, true, 0b00000001),
      some (result 8000 1 20, true, 0b00000001),
      some (result 0 0 0, true, 0b00000000),
      some (result 16000 3 40, true, 0b00000111),
      some (result 12000 2 30, true, 0b00000011),
      some (result 40000 8 100, true, 0b11111111),
      some (result 24000 5 60, true, 0b00011111),
      some (result 16000 3 40, true, 0b00000111),
      some (result 200000 2 20, true, 0b00000011),
      some (result 300000 3 30, true, 0b00000111)] := by
  decide

/-- V-D20, step 2: a gap mask from an accepted table; V-D21: the duty falls while the tier rises; V-D23: a
band that is not the highest latched one; V-D12l and V-D12m: saturation. -/
theorem test_eval_corners :
    [evalAt cfgG 0b00000011 30000,
      evalAt cfgFall 0 30000,
      evalAt cfgFall 0 42000,
      evalAt cfgA 0b00000111 38000,
      evalAt cfgA 0 2147483647,
      evalAt cfgA 0b11111111 (-2147483648)] =
    [some (result 6000 1 30, true, 0b00000010),
      some (result 20000 0 50, true, 0),
      some (result 0 1 0, true, 1),
      some (result 8000 1 20, true, 0b00000001),
      some (result 40000 8 100, true, 0b11111111),
      some (result 0 0 0, true, 0)] := by
  decide

/-- V-D1: the truncation. -/
theorem test_truncation :
    tdiv 1999 1000 = 1 ∧ tdiv (-999) 1000 = 0 ∧ tdiv (-1000) 1000 = -1 ∧ tdiv (-1999) 1000 = -1 ∧
    tdiv (-41999) 1000 = -41 ∧ tdiv (-2147482999) 1000 = -2147482 := by
  decide

/-- V-D13f to V-D13i: the decoders off the prefix masks. -/
theorem test_decoders :
    (popcount 0b00000010#8, hsb1 0b00000010#8, cto 0b00000010#8) = (1, 2, 0) ∧
    (popcount 0b00000101#8, hsb1 0b00000101#8, cto 0b00000101#8) = (2, 3, 1) ∧
    (popcount 0b10000000#8, hsb1 0b10000000#8, cto 0b10000000#8) = (1, 8, 0) ∧
    (popcount 0b11111110#8, hsb1 0b11111110#8, cto 0b11111110#8) = (7, 8, 0) := by
  decide

/-- The two-band table of V-L1 and of R96's counterexamples. -/
def twoBands (thr hys : Vector Word 2) : Table 2 :=
  { thr := thr, hys := hys, spd := #v[0, 30, 100], period := 20000, dpp := 200 }

/-- V-L1, natively with two bands: the masks of steps 2, 3, 4, 6 and 7, and the duties of tiers 1 and 2. -/
theorem test_two_bands :
    (twoBands #v[40, 60] #v[35, 55]).newMask 42 0b00 = 0b01 ∧
    (twoBands #v[40, 60] #v[35, 55]).newMask 38 0b01 = 0b01 ∧
    (twoBands #v[40, 60] #v[35, 55]).newMask 33 0b01 = 0b00 ∧
    (twoBands #v[40, 60] #v[35, 55]).newMask 58 0b11 = 0b11 ∧
    (twoBands #v[40, 60] #v[35, 55]).newMask 50 0b11 = 0b01 ∧
    (twoBands #v[40, 60] #v[35, 55]).duty 1 = 6000 ∧
    (twoBands #v[40, 60] #v[35, 55]).duty 2 = 20000 := by
  decide

/-- R96, counterexamples 1 and 2: a gap without `HysMono`, and one that `INIT_MASK` brings. -/
theorem test_gap_masks :
    (twoBands #v[40, 60] #v[35, 20]).newMask 30 0b11 = 0b10 ∧
    (twoBands #v[40, 41] #v[35, 35]).newMask 37 0b10 = 0b10 := by
  decide

/-! ### INIT and NOP -/

/-- V-D15c, V-D15g: INIT restarts the latch and keeps the configuration. -/
theorem test_init :
    seen (exec (.init 0) (.of (loaded cfgA 0b00000111))) = some (bare .ok, true, 0) ∧
    seen (exec (.init 0)
      (.of { loaded cfgA 0b11111111 with params := { identParams with initMask := 3 } })) =
      some (bare .ok, true, 0b00000011) := by
  decide

/-- V-D15f: NOP leaves the state. -/
theorem test_nop :
    seen (exec (.nop 0x12345678) (.of (loaded cfgA 0b00000111))) = some (bare .ok, true, 0b00000111) := by
  decide

/-- V-D15h: a reset mark. -/
theorem test_reset_mark :
    seen (step (.of { loaded cfgA 1 with host := [.reset] })) = some (none, false, 0) := by decide

/-! ### WellFormed: an ill-formed term for each check -/

theorem test_wellFormed_accepts :
    (Line.ldcfg cfgA).wellFormed 8 = true ∧ (Line.eval (-2147483648)).wellFormed 8 = true ∧
    (Line.eval 2147483647).wellFormed 8 = true ∧ (Line.evalc (-2147483)).wellFormed 8 = true ∧
    (Line.evalc 2147483).wellFormed 8 = true ∧ (Line.param (.bands 8)).wellFormed 8 = true ∧
    (Line.ldcfg { cfgA with lenThr := 2, thr := [40, 60] }).wellFormed 8 = true ∧
    (Instr.eval 0xFFFFFFFF#32).wellFormed = true := by
  decide

theorem test_wellFormed_refuses_temperatures :
    (Line.eval 2147483648).wellFormed 8 = false ∧ (Line.eval (-2147483649)).wellFormed 8 = false ∧
    (Line.evalc 2147484).wellFormed 8 = false ∧ (Line.evalc (-2147484)).wellFormed 8 = false := by
  decide

theorem test_wellFormed_refuses_lengths :
    (Line.ldcfg { cfgA with lenThr := 256 }).wellFormed 8 = false ∧
    (Line.ldcfg { cfgA with lenHys := 256 }).wellFormed 8 = false ∧
    (Line.ldcfg { cfgA with lenSpd := 256 }).wellFormed 8 = false ∧
    (Line.ldcfg { cfgA with thr := [40, 60] }).wellFormed 8 = false ∧
    (Line.ldcfg { cfgA with hys := [37] }).wellFormed 8 = false ∧
    (Line.ldcfg { cfgA with spd := [] }).wellFormed 8 = false ∧
    (Line.ldcfg { cfgA with lenThr := 9, thr := [1, 2, 3, 4, 5, 6, 7, 8, 9] }).wellFormed 8 = false ∧
    (Line.ldcfg { cfgA with lenHys := 9, hys := [1, 2, 3, 4, 5, 6, 7, 8, 9] }).wellFormed 8 = false ∧
    (Line.ldcfg { cfgA with lenSpd := 10, spd := [1, 2, 3, 4, 5, 6, 7, 8, 9, 10] }).wellFormed 8 =
      false := by
  decide

theorem test_wellFormed_refuses_values :
    (Line.ldcfg { cfgA with thr := [40, 45, 50, 55, 60, 65, 70, 2147483648] }).wellFormed 8 = false ∧
    (Line.ldcfg { cfgA with hys := [-2147483649, 42, 47, 52, 57, 62, 67, 72] }).wellFormed 8 = false ∧
    (Line.ldcfg { cfgA with spd := [-1, 20, 30, 40, 50, 60, 75, 90, 100] }).wellFormed 8 = false ∧
    (Line.ldcfg { cfgA with spd := [4294967296, 20, 30, 40, 50, 60, 75, 90, 100] }).wellFormed 8 =
      false ∧
    (Line.ldcfg { cfgA with period := 4294967296 }).wellFormed 8 = false ∧
    (Line.param (.bands 0)).wellFormed 8 = false ∧
    (Line.param (.initMask 256)).wellFormed 8 = false ∧
    (Line.param (.initMask 4)).wellFormed 2 = false := by
  decide

/-- R5's table: each fixed parameter has the value the table gives it, for 8 bands, and no other. -/
theorem test_wellFormed_fixed_parameters :
    [Setting.fixed .nt 9, .fixed .tempW 32, .fixed .cfgW 32, .fixed .periodW 32, .fixed .dutyW 32,
      .fixed .spdW 7, .fixed .tierW 4, .fixed .lenW 8].map (Setting.wellFormed 8) =
      List.replicate 8 true ∧
    [Setting.fixed .nt 8, .fixed .tempW 31, .fixed .cfgW 16, .fixed .periodW 64, .fixed .dutyW 33,
      .fixed .spdW 8, .fixed .tierW 3, .fixed .lenW 9].map (Setting.wellFormed 8) =
      List.replicate 8 false := by
  decide

/-- R5: `TIER_W = ceil(log2(N+1))`, on both sides of a power of two, and `NT = N + 1`. -/
theorem test_widths_follow_the_bands :
    [tierWidth 1, tierWidth 2, tierWidth 3, tierWidth 4, tierWidth 7, tierWidth 8, FixedParam.value 2 .nt] =
      [1, 2, 2, 3, 3, 4, 3] := by
  decide

/-! ### Text: R47, R48 -/

/-- The text of CFG-A's LDCFG; the braces are the parser's two constants. -/
def cfgALine : String :=
  "LDCFG " ++ String.singleton openBrace ++
  " len=(8,8,9) thr=[40,45,50,55,60,65,70,75] hys=[37,42,47,52,57,62,67,72] " ++
  "spd=[0,20,30,40,50,60,75,90,100] period=40000 " ++ String.singleton closeBrace

theorem test_readLine :
    [readLine "EVAL -42 # c", readLine "EVALC 65", readLine "# only a comment", readLine ".reset",
      readLine ".param INIT_MASK=00000011", readLine "nop", readLine "EVAL"] =
    [some [.eval (-42)], some [.evalc 65], some [], some [.reset], some [.param (.initMask 3)],
      none, none] := by
  decide

/-- R47: `.param NAME=value` is read for each of the twelve names of R5's table, and for no other. -/
theorem test_readLine_param :
    [readLine ".param N=2", readLine ".param NT=3", readLine ".param TEMP_W=32", readLine ".param CFG_W=32",
      readLine ".param PERIOD_W=32", readLine ".param DUTY_W=32", readLine ".param SPD_W=7",
      readLine ".param TIER_W=2", readLine ".param LEN_W=8"] =
    [some [.param (.bands 2)], some [.param (.fixed .nt 3)], some [.param (.fixed .tempW 32)],
      some [.param (.fixed .cfgW 32)], some [.param (.fixed .periodW 32)],
      some [.param (.fixed .dutyW 32)], some [.param (.fixed .spdW 7)], some [.param (.fixed .tierW 2)],
      some [.param (.fixed .lenW 8)]] ∧
    [readLine ".param CFG_DECODE=BSWAP32", readLine ".param INIT_MASK=0b01",
      readLine ".param DECODER=popcount", readLine ".param WIDTH=8"] =
    [some [.param (.cfgDecode .bswap32)], some [.param (.initMask 1)], some [.param (.decoder .popcount)],
      none] := by
  decide

/-- R47: "`<p>` is a decimal unsigned integer": no sign before it. -/
theorem test_unsigned_numbers :
    [takeNat [.word "40000".toList], takeNat [.word "+40000".toList], takeNat [.word "-0".toList]] =
    [some (40000, []), none, none] := by decide

set_option maxRecDepth 4000 in
theorem test_readLine_ldcfg : readLine cfgALine = some [.ldcfg cfgA] := by decide

/-- P5: under `BSWAP32` the assembler writes the byte reverse of the two's-complement word, and leaves the
period as it is. -/
theorem test_assemble_swaps :
    (ConfigText.toBus 8 .bswap32 cfgN).thrRaw[0] = 0xF6FFFFFF ∧
    (ConfigText.toBus 8 .bswap32 cfgN).spdRaw[8] = 0x64000000 ∧
    (ConfigText.toBus 8 .bswap32 cfgN).period = 0x000F4240 := by
  decide

/-- P5's first command, through the program's start state. -/
theorem test_program_start :
    ((programStart [.param (.cfgDecode .bswap32), .ldcfg cfgN]).bind fun s => seen (step s)) =
      some (bare .ok, true, 0) := by
  decide

/-- The configuration of V-L1: two bands. -/
def cfgL1 : ConfigText where
  lenThr := 2
  lenHys := 2
  lenSpd := 3
  thr    := [40, 60]
  hys    := [35, 55]
  spd    := [0, 30, 100]
  period := 20000

/-- The text of V-L1's stream up to step 2, in its native form. -/
def streamL1 : List String :=
  [".param N=2", ".param CFG_DECODE=IDENT",
    "LDCFG " ++ String.singleton openBrace ++ " len=(2,2,3) thr=[40,60] hys=[35,55] spd=[0,30,100] " ++
      "period=20000 " ++ String.singleton closeBrace,
    "EVAL 30000", "EVAL 42000"]

set_option maxRecDepth 4000 in
theorem test_readLines_two_bands :
    readLines streamL1 =
      some [.param (.bands 2), .param (.cfgDecode .ident), .ldcfg cfgL1, .eval 30000, .eval 42000] := by
  decide

/-- V-L1, step 0: the stream assembles for two bands, and its LDCFG answers OK with `DPP = 200`. -/
theorem test_two_band_load :
    (programStart [.param (.bands 2), .param (.cfgDecode .ident), .ldcfg cfgL1, .eval 30000]).map
      (fun s => (s.bands, seen (step s))) = some (2, some (bare .ok, true, 0)) ∧
    (Bus.toTable .ident (ConfigText.toBus 2 .ident cfgL1)).dpp = 200 := by
  decide

/-- The two-band block with V-L1's configuration and this mask. -/
def loadedL1 (m : Mask 2) : Block 2 :=
  { Block.resetWith { cfgDecode := .ident, initMask := 0, decoder := .popcount } with
    cfgValid := true
    table := Bus.toTable .ident (ConfigText.toBus 2 .ident cfgL1)
    mask := m }

/-- The response of V-L1's block, whose tier field has two bits. -/
def resultL1 (duty tier speed : Nat) : Option Response :=
  some { status := .ok,
         result := some { duty := BitVec.ofNat 32 duty, tier := { width := 2, bits := BitVec.ofNat 2 tier },
                          speed := BitVec.ofNat 7 speed } }

/-- V-L1, steps 2, 4, 5 and 7, natively. -/
theorem test_two_band_evals :
    [seen (exec (.eval 42000) (.of (loadedL1 0b00))), seen (exec (.eval 33000) (.of (loadedL1 0b01))),
      seen (exec (.eval 65000) (.of (loadedL1 0b00))), seen (exec (.eval 50000) (.of (loadedL1 0b11)))] =
    [some (resultL1 6000 1 30, true, 0b01), some (resultL1 0 0 0, true, 0b00),
      some (resultL1 20000 2 100, true, 0b11), some (resultL1 6000 1 30, true, 0b01)] := by
  decide

/-- A strategy that exchanges the words 1 and 2. -/
def swapsOneAndTwo : CfgDecode := .listed [(1, 2), (2, 1)]

/-- R30, R47: a strategy that is neither named one decodes the words it lists and leaves the others, and the
assembler inverts it; one that is no bijection has no inverse. -/
theorem test_listed_strategy :
    (cfgDecode swapsOneAndTwo 1, cfgDecode swapsOneAndTwo 7, rawWord swapsOneAndTwo 2) = (2, 7, 1) ∧
    Line.assemble 8 (.listed [(1, 2)]) (.ldcfg cfgA) = none := by decide

/-- An ill-formed line does not assemble: a temperature out of range, V-L1's LDCFG with a list longer than
its bus has slots (log entry 14), a fixed parameter at another value. -/
theorem test_assemble_refuses :
    [Line.assemble 2 .ident (.eval 2147483648), Line.assemble 2 .ident (.ldcfg { cfgL1 with lenThr := 3, thr := [40, 60, 70] }),
      Line.assemble 2 .ident (.param (.fixed .nt 9))] = [none, none, none] := by decide

/-! ### Witnesses: for each statement with hypotheses, instances and operands that meet them together, each
clause of a statement at a boundary of its range. The names are the statements'. -/

/-- The temperature operand `T`. -/
abbrev arg (T : Int) : BitVec 32 := BitVec.ofInt 32 T

/-- An instance of 8 bands right after reset. -/
abbrev fresh : Block 8 := Block.resetWith identParams

/-- An EVAL at `T` from a loaded instance completes with a result. -/
theorem eval_completes (c : ConfigText) (m : Mask 8) (T : Int) :
    ∃ (b' : Block 8) (e : Evaluation), exec (.eval (arg T)) (.of (loaded c m)) = .next (.of b') ∧
      b'.response = some { status := .ok, result := some e } := ⟨_, _, rfl, rfl⟩

theorem test_witness_OpcodeMapDecodesEveryWord :
    (0x0FFFFFFFF#34).extractLsb' 32 2 = 0b00#2 ∧ (0x100000000#34).extractLsb' 32 2 = 0b01#2 ∧
    (0x2DEADBEEF#34).extractLsb' 32 2 = 0b10#2 ∧ (0x3FFFFFFFF#34).extractLsb' 32 2 = 0b11#2 := by
  decide

theorem test_witness_StepRunsTheDecodedCommand :
    ({ fresh with host := [.command 0x30000C350#34 (idleBus 8)] }).host =
      .command 0x30000C350#34 (idleBus 8) :: [] ∧
    decode 0x30000C350#34 = .eval 50000 ∧ (Instr.eval 50000).wellFormed = true :=
  ⟨rfl, by decide, rfl⟩

theorem test_witness_ResetMarkGivesTheResetState :
    ({ loaded cfgA 3 with host := [.reset, .reset] }).host = .reset :: [.reset] := rfl

theorem test_witness_WithoutACommandTheBlockWaits : fresh.host = [] := rfl

theorem test_witness_HostBreachFaults :
    ({ fresh with host := [.breach .earlyCommand] }).host = .breach .earlyCommand :: [] ∧
    ({ fresh with host := [.breach .busChanged] }).host = .breach .busChanged :: [] ∧
    ({ fresh with host := [.breach .resetDuringCommand] }).host =
      .breach .resetDuringCommand :: [] := ⟨rfl, rfl, rfl⟩

theorem test_witness_InitRestartsTheLatch : ∃ t, step (.of (loaded cfgA 7)) = .next t := ⟨_, rfl⟩

theorem test_witness_NopIsTransparent :
    ∃ rs t, runMoves [HostMove.ofInstr (.eval (arg 52300)) (idleBus 8)] (loaded cfgA 0) =
      .next (rs, t) :=
  ⟨_, _, rfl⟩

theorem test_witness_LoadIsLockedOnceConfigured :
    (loaded cfgA 0).cfgValid = true ∧ (offered { cfgA with lenSpd := 8 }).cfgValid = false ∧
    ∃ (b' : Block 8) (r : Response),
      exec (.ldcfg 0) (.of (offered { cfgA with lenSpd := 8 })) = .next (.of b') ∧
      b'.response = some r ∧ r.status ≠ .ok :=
  ⟨rfl, rfl, _, _, rfl, rfl, by decide⟩

/-- One wrong length of the three at a time, each a neighbour of the right one, and the right triple. -/
theorem test_witness_LengthCheck :
    (offered cfgA).cfgValid = false ∧
    ((offered { cfgA with lenThr := 7 }).bus.lenThr.toNat,
      (offered { cfgA with lenHys := 9 }).bus.lenHys.toNat,
      (offered { cfgA with lenSpd := 8 }).bus.lenSpd.toNat) = (7, 9, 8) ∧
    (offered cfgA).bus.LengthsRight := by
  decide

/-- Lengths right, with no pair out of order (equal neighbours) and with the last pair out of order. -/
theorem test_witness_MonotonicityCheck :
    (offered cfgFlat).cfgValid = false ∧ (offered cfgFlat).bus.LengthsRight ∧
    ¬ (offered cfgFlat).bus.Decreasing .ident ∧
    (offered { cfgA with thr := [40, 45, 50, 55, 60, 65, 70, 69] }).bus.LengthsRight ∧
    (offered { cfgA with thr := [40, 45, 50, 55, 60, 65, 70, 69] }).bus.Decreasing .ident := by
  decide

/-- Thresholds in order, with every `hys = thr` and with one just above; a latched band at the lowest
hysteresis threshold. -/
theorem test_witness_HysteresisCheck :
    (offered cfgFlat).bus.LengthsRight ∧ ¬ (offered cfgFlat).bus.Decreasing .ident ∧
    ¬ (offered cfgFlat).bus.HysteresisAbove .ident ∧
    (offered { cfgA with hys := [37, 42, 51, 52, 57, 62, 67, 72] }).bus.LengthsRight ∧
    ¬ (offered { cfgA with hys := [37, 42, 51, 52, 57, 62, 67, 72] }).bus.Decreasing .ident ∧
    (offered { cfgA with hys := [37, 42, 51, 52, 57, 62, 67, 72] }).bus.HysteresisAbove .ident ∧
    (loaded cfgStuck 1).table.hys[(0 : Fin 8)].toInt = -2147483648 ∧
    (loaded cfgStuck 1).mask[(0 : Fin 8)] = true ∧
    evalAt cfgStuck 1 (-2147483648) ≠ none := by
  decide

/-- The checks before it passed, with a speed of 100 and with one of 101. -/
theorem test_witness_SpeedCheck :
    (offered cfgA).bus.LengthsRight ∧ ¬ (offered cfgA).bus.Decreasing .ident ∧
    ¬ (offered cfgA).bus.HysteresisAbove .ident ∧ (offered cfgA).bus.spd .ident 8 = 100 ∧
    ¬ (offered { cfgA with spd := [101, 20, 30, 40, 50, 60, 75, 90, 100] }).bus.HysteresisAbove .ident ∧
    (offered { cfgA with spd := [101, 20, 30, 40, 50, 60, 75, 90, 100] }).bus.SpeedAbove .ident := by
  decide

/-- With eight bands, and with the two of V-L1. -/
theorem test_witness_LoadCommitsTheWholeTable :
    ((offered cfgA).cfgValid = false ∧ (offered cfgA).bus.LengthsRight ∧
      ¬ (offered cfgA).bus.Decreasing (offered cfgA).params.cfgDecode ∧
      ¬ (offered cfgA).bus.HysteresisAbove (offered cfgA).params.cfgDecode ∧
      ¬ (offered cfgA).bus.SpeedAbove (offered cfgA).params.cfgDecode) ∧
    (ConfigText.toBus 2 .ident cfgL1).LengthsRight ∧ ¬ (ConfigText.toBus 2 .ident cfgL1).Decreasing .ident ∧
    ¬ (ConfigText.toBus 2 .ident cfgL1).HysteresisAbove .ident ∧
    ¬ (ConfigText.toBus 2 .ident cfgL1).SpeedAbove .ident := by
  decide

theorem test_witness_NamedDecodingStrategies :
    (cfgDecode .bswap32 0x12345678#32) = 0x78563412#32 ∧ (0 : Nat) < 8 ∧ (7 : Nat) < 8 := by decide

theorem test_witness_ResetAllowsReconfiguration :
    Bus.configError (loaded cfgG 3).params.cfgDecode (ConfigText.toBus 8 .ident cfgA) = none := by decide

theorem test_witness_TableIsImmutableUntilReset :
    (loaded cfgA 0).cfgValid = true ∧
    (∀ m ∈ [HostMove.ofInstr (.ldcfg 0) (idleBus 8), HostMove.ofInstr (.init 0) (idleBus 8)],
      m.isCommand = true) ∧
    ∃ (rs : List Response) (b' : Block 8),
      runMoves [HostMove.ofInstr (.ldcfg 0) (idleBus 8), HostMove.ofInstr (.init 0) (idleBus 8)]
        (loaded cfgA 0) = .next (rs, .of b') :=
  ⟨rfl, by simp [HostMove.ofInstr, HostMove.isCommand], _, _, rfl⟩

theorem test_witness_EvalNeedsAConfiguration :
    fresh.cfgValid = false ∧ (loaded cfgA 0).cfgValid = true := ⟨rfl, rfl⟩

theorem test_witness_EvalInFull :
    fresh.cfgValid = false ∧ (loaded cfgA 5).cfgValid = true ∧ (loaded cfgA 5).table.Valid ∧
    (loaded cfgA 5).params.decoder = .popcount ∧
    (∃ k : Fin 9, k.val = 8) ∧ (∃ k : Fin 9, k.val = 0) :=
  ⟨rfl, rfl, cfgA_valid 5, rfl, ⟨8, rfl⟩, ⟨0, rfl⟩⟩

/-- A decoder that is not a named one; and the least width for two bands and for eight. -/
theorem test_witness_EvalCompletesForEveryDecoder :
    ({ loaded cfgA 5 with
      params := { identParams with decoder := .listed [(2, 5)] } }).cfgValid = true ∧
    (∃ k : Fin 9, k.val = 8) ∧ 2 + 1 ≤ 2 ^ 2 ∧ 8 + 1 ≤ 2 ^ 4 :=
  ⟨rfl, ⟨8, rfl⟩, by decide, by decide⟩

/-- Band 0 of CFG-A at 36, 37, 39 and 40 degrees: each region at its edge; and a band without a window. -/
theorem test_witness_LatchHasThreeRegions :
    (loaded cfgA 1).cfgValid = true ∧ (loaded cfgA 1).table.Valid ∧
    (∃ (b' : Block 8) (e : Evaluation), exec (.eval (arg 36999)) (.of (loaded cfgA 1)) = .next (.of b') ∧
      b'.response = some { status := .ok, result := some e }) ∧
    (tdiv (arg 36999).toInt 1000 < (loaded cfgA 1).table.hys[(0 : Fin 8)].toInt ∧
      (loaded cfgA 1).table.hys[(0 : Fin 8)].toInt ≤ tdiv (arg 37000).toInt 1000 ∧
      tdiv (arg 39999).toInt 1000 < (loaded cfgA 1).table.thr[(0 : Fin 8)].toInt ∧
      (loaded cfgA 1).table.thr[(0 : Fin 8)].toInt ≤ tdiv (arg 40000).toInt 1000) ∧
    (loaded cfgFlat 1).table.Valid ∧
    (loaded cfgFlat 1).table.hys[(0 : Fin 8)] = (loaded cfgFlat 1).table.thr[(0 : Fin 8)] :=
  ⟨rfl, cfgA_valid 1, eval_completes _ _ _, by decide, loaded_valid 1 (by decide), by decide⟩

/-- Two instances that agree on band 1 and differ on band 0. -/
theorem test_witness_BandsAreIndependent :
    (loaded cfgA 0).table.thr[(1 : Fin 8)] = (loaded cfgStuck 1).table.thr[(1 : Fin 8)] ∧
    (loaded cfgA 0).table.hys[(1 : Fin 8)] = (loaded cfgStuck 1).table.hys[(1 : Fin 8)] ∧
    (loaded cfgA 0).mask[(1 : Fin 8)] = (loaded cfgStuck 1).mask[(1 : Fin 8)] ∧
    evalAt cfgA 0 43000 ≠ none ∧ evalAt cfgStuck 1 43000 ≠ none := by
  decide

theorem test_witness_TruncationLaws :
    (-1 : Int) ≤ 0 ∧ (0 : Int) ≤ 0 ∧ (-1 : Int) < 0 ∧ (-1 : Int) ≠ 0 ∧ (1 : Int) ≤ 1 ∧ (0 : Int) ≤ 0 := by
  decide

theorem test_witness_TierRange :
    (loaded cfgA 255).params.decoder = .popcount ∧
    ∃ (b' : Block 8) (e : Evaluation), exec (.eval (arg 80000)) (.of (loaded cfgA 255)) = .next (.of b') ∧
      b'.response = some { status := .ok, result := some e } :=
  ⟨rfl, eval_completes _ _ _⟩

/-- The largest period there is, at full speed (V-D14i). -/
theorem test_witness_SpeedAndDutyBounds :
    (loaded { cfgA with period := 4294967295 } 255).table.Valid ∧
    ∃ (b' : Block 8) (e : Evaluation),
      exec (.eval (arg 80000)) (.of (loaded { cfgA with period := 4294967295 } 255)) = .next (.of b') ∧
      b'.response = some { status := .ok, result := some e } :=
  ⟨loaded_valid 255 (by decide), eval_completes _ _ _⟩

/-- A period that is not a multiple of 100, at full speed (V-D14d). -/
theorem test_witness_DutyGranularity :
    (loaded { cfgA with period := 12345 } 255).table.Valid ∧
    evalAt { cfgA with period := 12345 } 255 80000 = some (result 12300 8 100, true, 255) :=
  ⟨loaded_valid 255 (by decide), by decide⟩

/-- Two instances that differ in the response port, the bus and the queue. -/
theorem test_witness_CommandsAreDeterministic :
    let b := loaded cfgA 3
    let b' := { loaded cfgA 3 with response := bare .locked, bus := idleBus 8, host := [.reset] }
    b.cfgValid = true ∧ b'.cfgValid = true ∧ b.mask = b'.mask ∧ b.table = b'.table ∧
    b.params.decoder = b'.params.decoder ∧
    (∃ c c' : Block 8, exec (.eval 0) (.of b) = .next (.of c) ∧ exec (.eval 0) (.of b') = .next (.of c')) ∧
    (∃ c c' : Block 8, exec (.ldcfg 0) (.of (offered cfgA)) = .next (.of c) ∧
      exec (.ldcfg 1) (.of { offered cfgA with mask := 7 }) = .next (.of c')) :=
  ⟨rfl, rfl, rfl, rfl, rfl, ⟨_, _, rfl, rfl⟩, _, _, rfl, rfl⟩

theorem test_witness_EvalIsIdempotent :
    ∃ t, exec (.eval (arg 30000)) (.of (loaded cfgG 3)) = .next t := ⟨_, rfl⟩

theorem test_witness_StepKeepsTheTableValid :
    (State.of (offered cfgA)).TableInv ∧ (State.of (loaded cfgA 0)).TableInv ∧
    ∃ t, step (.of { offered cfgA with host := [HostMove.ofInstr (.ldcfg 0) (offered cfgA).bus] }) =
      .next t :=
  ⟨nofun, fun _ => cfgA_valid 0, _, rfl⟩

theorem test_witness_StepKeepsNesting :
    (State.of (loaded cfgA 7)).TableInv ∧ (State.of (loaded cfgA 7)).HysMonoIfLoaded ∧
    (State.of (loaded cfgA 7)).Nested ∧
    ∃ t, step (.of { loaded cfgA 7 with host := [HostMove.ofInstr (.eval (arg 57000)) (idleBus 8)] }) =
      .next t :=
  ⟨fun _ => cfgA_valid 7, fun _ => show (loaded cfgA 7).table.HysMono by decide,
    ⟨show IsPrefix (loaded cfgA 7).params.initMask by decide, show IsPrefix (loaded cfgA 7).mask by decide⟩,
    _, rfl⟩

/-- Two loads: CFG-A, whose hysteresis thresholds are in order, and then CFG-G, whose are not, which the lock
refuses. -/
def loadTwice : List (HostMove 8) :=
  [HostMove.ofInstr (.ldcfg 0) (ConfigText.toBus 8 .ident cfgA),
    HostMove.ofInstr (.ldcfg 0) (ConfigText.toBus 8 .ident cfgG)]

theorem test_witness_NestingHoldsOverRuns :
    IsPrefix identParams.initMask ∧
    (∀ (before rest : List (HostMove 8)) (w : CmdWord) (bus : Bus 8) (a : BitVec 32) (s : Block 8)
      (rs' : List Response), loadTwice = before ++ .command w bus :: rest →
      runMoves before (Block.resetWith identParams) = .next (rs', .of s) → s.cfgValid = false →
      decode w = .ldcfg a → bus.configError identParams.cfgDecode = none →
      (bus.toTable identParams.cfgDecode).HysMono) ∧
    ∃ (rs : List Response) (b' : Block 8),
      runMoves loadTwice (Block.resetWith identParams) = .next (rs, .of b') := by
  refine ⟨by decide, fun before rest w b a s rs' hm hr hs _ _ => ?_, _, _, rfl⟩
  match before with
  | [] =>
    simp only [loadTwice, HostMove.ofInstr, List.nil_append, List.cons.injEq,
      HostMove.command.injEq] at hm
    rw [← hm.1.2]
    decide
  | m :: more =>
    rw [loadTwice, List.cons_append, List.cons.injEq] at hm
    obtain ⟨rfl, hm⟩ := hm
    match more with
    | [] =>
      have first : runMoves [HostMove.ofInstr (.ldcfg 0) (ConfigText.toBus 8 .ident cfgA)]
          (Block.resetWith identParams) =
            .next ([{ status := .ok, result := none }],
              .of (Block.loadConfig { offered cfgA with host := [] })) := rfl
      rw [first] at hr
      simp only [Host.Outcome.next.injEq, Prod.mk.injEq, State.of_inj] at hr
      rw [← hr.2] at hs
      exact absurd hs (by decide)
    | _ :: more => simp at hm

/-- R96's own counterexample, embedded in eight bands (CFG-G, bands 0 and 1). -/
theorem test_witness_NestingNeedsHysMono :
    (loaded cfgG 0).cfgValid = true ∧ (loaded cfgG 0).table.Valid ∧ (loaded cfgG 0).mask = 0 ∧
    ((0 : Fin 8) < 1 ∧
      (loaded cfgG 0).table.hys[(1 : Fin 8)].toInt < (loaded cfgG 0).table.hys[(0 : Fin 8)].toInt ∧
      (loaded cfgG 0).table.thr[(1 : Fin 8)].toInt ≤ 2147483 ∧
      (loaded cfgG 0).table.hys[(0 : Fin 8)].toInt > -2147483) ∧
    ∃ b₁ b₂ : Block 8,
      exec (.eval (arg (max (loaded cfgG 0).table.thr[(1 : Fin 8)].toInt (-2147483) * 1000)))
        (.of (loaded cfgG 0)) = .next (.of b₁) ∧
      exec (.eval (arg (max (loaded cfgG 0).table.hys[(1 : Fin 8)].toInt (-2147483) * 1000))) (.of b₁) =
        .next (.of b₂) :=
  ⟨rfl, loaded_valid 0 (by decide), rfl, by decide, _, _, rfl, rfl⟩

theorem test_witness_DecodersAgreeOnPrefixMasks :
    (0 : Nat) ≤ 8 ∧ (8 : Nat) ≤ 8 ∧ ¬ IsPrefix (0b10000000#8) ∧ ¬ IsPrefix (0b10#2) ∧
    (∀ k, k ≤ 8 → popcount (prefixMask 8 k) = k) ∧ (∀ m : Mask 8, popcount m ≤ 8) :=
  ⟨by decide, by decide, by decide, by decide, fun _ h => popcount_prefixMask h, popcount_le⟩

theorem test_witness_NewMaskIsMonotone : (43 : Int) ≤ 48 ∧ MaskLe (0b00000001#8) (0b00000101#8) := by
  decide

theorem test_witness_DutyIsMonotoneUnderSpdMono :
    (loaded cfgA 0).cfgValid = true ∧ (loaded cfgA 0).table.Valid ∧ (loaded cfgA 0).mask = 0 ∧
    (arg 30000).toInt < (arg 42000).toInt ∧
    (∃ (b' : Block 8) (e : Evaluation), exec (.eval (arg 30000)) (.of (loaded cfgA 0)) = .next (.of b') ∧
      b'.response = some { status := .ok, result := some e }) ∧
    (∃ (b' : Block 8) (e : Evaluation), exec (.eval (arg 42000)) (.of (loaded cfgA 0)) = .next (.of b') ∧
      b'.response = some { status := .ok, result := some e }) ∧
    (loaded cfgA 0).table.SpdMono :=
  ⟨rfl, cfgA_valid 0, rfl, by decide, eval_completes _ _ _, eval_completes _ _ _, by decide⟩

/-- The highest band, `k = 7`, at both edges of its hold region; and the millidegree clauses at theirs. -/
theorem test_witness_NoChatter :
    (loaded cfgA 255).cfgValid = true ∧ (loaded cfgA 255).table.Valid ∧
    (loaded cfgA 255).mask = prefixMask 8 ((7 : Fin 8).val + 1) ∧
    (∀ j : Fin 8, j < 7 →
      (loaded cfgA 255).table.hys[j].toInt ≤ (loaded cfgA 255).table.hys[(7 : Fin 8)].toInt) ∧
    (∀ a ∈ [arg 72000, arg 74999],
      (loaded cfgA 255).table.hys[(7 : Fin 8)].toInt ≤ wholeDegrees a ∧
      wholeDegrees a < (loaded cfgA 255).table.thr[(7 : Fin 8)].toInt) ∧
    (∃ (rs : List Response) (b' : Block 8),
      runMoves ([arg 72000, arg 74999].map fun a => HostMove.ofInstr (.eval a) (idleBus 8))
        (loaded cfgA 255) = .next (rs, .of b')) ∧
    ((1 : Int) ≥ 1 ∧ 1000 * (0 : Int) < 999 ∧ (999 : Int) < 1000 * 1) ∧
    ((0 : Int) ≤ 0 ∧ 1000 * (0 : Int) - 1000 < -999 ∧ (-999 : Int) < 1000 * 0) :=
  ⟨rfl, cfgA_valid 255, by decide, by decide,
    List.forall_mem_cons.mpr ⟨by decide, List.forall_mem_cons.mpr ⟨by decide, nofun⟩⟩, ⟨_, _, rfl⟩,
    by decide, by decide⟩

/-- One degree below the lowest hysteresis threshold, at the highest threshold, and the two extreme
arguments, each with the tier it gives. -/
theorem test_witness_TiersSaturate :
    (7 : Fin 8).val + 1 = 8 ∧ (loaded cfgA 255).cfgValid = true ∧ (loaded cfgA 255).table.Valid ∧
    (∃ (b' : Block 8) (e : Evaluation), exec (.eval (arg 36999)) (.of (loaded cfgA 255)) = .next (.of b') ∧
      b'.response = some { status := .ok, result := some e }) ∧
    (∀ i : Fin 8, wholeDegrees (arg 36999) < (loaded cfgA 255).table.hys[i].toInt) ∧
    wholeDegrees (arg 75000) ≥ (loaded cfgA 255).table.thr[(7 : Fin 8)].toInt ∧
    ((arg (-2147483648)).toInt = -2147483648 ∧ (loaded cfgA 255).mask = BitVec.allOnes 8 ∧
      (∀ i : Fin 8, (loaded cfgA 255).table.hys[i].toInt > -2147483) ∧
      evalAt cfgA 255 (-2147483648) = some (result 0 0 0, true, 0)) ∧
    ((arg 2147483647).toInt = 2147483647 ∧ (loaded cfgA 0).mask = 0 ∧
      (loaded cfgA 0).table.thr[(7 : Fin 8)].toInt ≤ 2147483 ∧
      evalAt cfgA 0 2147483647 = some (result 40000 8 100, true, 255)) :=
  ⟨rfl, rfl, cfgA_valid 255, eval_completes _ _ _, by decide, by decide, by decide, by decide⟩

theorem test_witness_ClosedFormFromTheEmptyMask :
    (loaded cfgG 0).cfgValid = true ∧ (loaded cfgG 0).table.Valid ∧ (loaded cfgG 0).mask = 0 ∧
    ∃ (b' : Block 8) (e : Evaluation), exec (.eval (arg 60000)) (.of (loaded cfgG 0)) = .next (.of b') ∧
      b'.response = some { status := .ok, result := some e } :=
  ⟨rfl, loaded_valid 0 (by decide), rfl, eval_completes _ _ _⟩

/-- R103 at `k = 8` and 57 degrees (V-D12j), clamped from above. -/
theorem test_witness_ClosedFormUnderNesting :
    (loaded cfgA 255).cfgValid = true ∧ (loaded cfgA 255).table.Valid ∧
    (loaded cfgA 255).table.HysMono ∧ (8 : Nat) ≤ 8 ∧ (loaded cfgA 255).mask = prefixMask 8 8 ∧
    ∃ (b' : Block 8) (e : Evaluation), exec (.eval (arg 57000)) (.of (loaded cfgA 255)) = .next (.of b') ∧
      b'.response = some { status := .ok, result := some e } :=
  ⟨rfl, cfgA_valid 255, by decide, by decide, by decide, eval_completes _ _ _⟩

theorem test_witness_BandsWithoutAWindow :
    (loaded cfgFlat 255).cfgValid = true ∧ (loaded cfgFlat 255).table.Valid ∧
    (∀ i : Fin 8, (loaded cfgFlat 255).table.hys[i] = (loaded cfgFlat 255).table.thr[i]) ∧
    ∃ (b' : Block 8) (e : Evaluation), exec (.eval (arg 49999)) (.of (loaded cfgFlat 255)) = .next (.of b') ∧
      b'.response = some { status := .ok, result := some e } :=
  ⟨rfl, loaded_valid 255 (by decide), by decide, eval_completes _ _ _⟩

theorem test_witness_RefusalsChangeNothing :
    ∃ (b' : Block 8) (r : Response), exec (.eval 50000) (.of fresh) = .next (.of b') ∧
      b'.response = some r ∧ r.status ≠ .ok :=
  ⟨_, _, rfl, rfl, by decide⟩

theorem test_witness_ResultsComeFromCompletedEvals :
    ∃ t r, exec (.init 0) State.reset = .next t ∧ t.block.response = some r := ⟨_, _, rfl, rfl⟩

/-- A reset mark, a load and an EVAL: the three disjuncts; and the load's own clause. -/
theorem test_witness_ModeTransitions :
    (∃ t, step (.of { loaded cfgA 1 with host := [.reset] }) = .next t) ∧
    (∃ t, step (.of { offered cfgA with host := [HostMove.ofInstr (.ldcfg 0) (offered cfgA).bus] }) =
      .next t) ∧
    (∃ t, step (.of { loaded cfgA 1 with host := [HostMove.ofInstr (.eval 0) (idleBus 8)] }) = .next t) ∧
    ∃ t, exec (.ldcfg 0) (.of (offered cfgA)) = .next t ∧
      t.block.response = some { status := .ok, result := none } :=
  ⟨⟨_, rfl⟩, ⟨_, rfl⟩, ⟨_, rfl⟩, _, rfl, rfl⟩

theorem test_witness_OperandBusIsIgnoredOutsideLdcfg :
    (∀ a, Instr.eval 0 ≠ .ldcfg a) ∧
    ∃ b' : Block 8, exec (.eval 0) (.of (loaded cfgA 3)) = .next (.of b') :=
  ⟨nofun, _, rfl⟩

/-- Two unconfigured instances with different tables, buses and responses. -/
theorem test_witness_OnlyTheArchitecturalStateIsObservable :
    let b := offered cfgA
    let b' := { fresh with table := (loaded cfgG 0).table, response := bare .locked }
    b.cfgValid = b'.cfgValid ∧ b.mask = b'.mask ∧ b.params = b'.params ∧
    (b.cfgValid = true → b.table = b'.table) ∧
    ∃ rs t, runMoves [HostMove.ofInstr (.ldcfg 0) (ConfigText.toBus 8 .ident cfgA)] b = .next (rs, t) :=
  ⟨rfl, rfl, rfl, nofun, _, _, rfl⟩

theorem test_witness_RunsNeverStop :
    ∀ m ∈ [HostMove.reset, HostMove.ofInstr (.nop 0) (idleBus 8)], m.allowed = true := by
  simp [HostMove.ofInstr, HostMove.allowed]

theorem test_witness_RunsCompose :
    ∃ (rs : List Response) (b' : Block 8) (rs' : List Response) (u : State),
      runMoves [HostMove.ofInstr (.init 0) (idleBus 8)] fresh = .next (rs, .of b') ∧
      runMoves [HostMove.reset] b' = .next (rs', u) := ⟨_, _, _, _, rfl, rfl⟩

/-- Two instances, of eight bands and of two; the second one steps. -/
theorem test_witness_InstancesAreIndependent :
    ([State.reset, .of (loadedL1 1)] : Instances)[1]? = some (.of (loadedL1 1)) ∧
    ∃ sys', Instances.stepAt [State.reset, .of (loadedL1 1)] 1 = .next sys' := ⟨rfl, _, rfl⟩

theorem test_witness_EvalcEvaluatesAtWholeDegrees :
    (-2147483 : Int) ≤ -2147483 ∧ (-2147483 : Int) ≤ 2147483 ∧ (2147483 : Int) ≤ 2147483 := by decide

/-- CFG-N for eight bands under two strategies, and V-L1's configuration for two bands. -/
theorem test_witness_AssembledLdcfgDecodesToItsText :
    Function.Bijective (cfgDecode .bswap32) ∧ Function.Bijective (cfgDecode swapsOneAndTwo) ∧
    (cfgN.wellFormed 8 = true ∧ cfgN.lenThr = 8 ∧ cfgN.lenHys = 8 ∧ cfgN.lenSpd = 8 + 1) ∧
    (cfgL1.wellFormed 2 = true ∧ cfgL1.lenThr = 2 ∧ cfgL1.lenHys = 2 ∧ cfgL1.lenSpd = 2 + 1) :=
  ⟨(CfgDecode.invertible_iff _).mp rfl, (CfgDecode.invertible_iff _).mp (by decide), by decide, by decide⟩

end Sys2Proof.Tests
end

section
/-! SUPPORT. What the open parameters and the widths of the scope give: the listed decoding strategies, the
bytes of a reversed word, the least width of a tier, and EVAL in mode CONFIGURED. -/

namespace Sys2Proof.Machine

variable {n : Nat}

/-- Every word of `w` bits, in numerical order: the domain of a function given by the list of its pairs. -/
def allWords (w : Nat) : List (BitVec w) := (List.range (2 ^ w)).map (BitVec.ofNat w)

theorem mem_allWords {w : Nat} (v : BitVec w) : v ∈ allWords w :=
  List.mem_map.mpr ⟨v.toNat, List.mem_range.mpr v.isLt, by simp⟩

/-- The strategy that lists the graph of `f` (log entry 3). -/
def CfgDecode.ofFunction (f : Word → Word) : CfgDecode := .listed ((allWords 32).map fun w => (w, f w))

@[simp] theorem cfgDecode_ofFunction (f : Word → Word) : cfgDecode (CfgDecode.ofFunction f) = f := by
  funext w
  simp [CfgDecode.ofFunction, cfgDecode, List.lookup_graph f (mem_allWords w)]

/-- BSWAP32 puts byte `j` in the mirrored place (R7). -/
theorem bswap32_byte (v : Word) {i j : Nat} (hi : i < 8) (hj : j < 4) :
    (bswap32 v).getLsbD (8 * j + i) = v.getLsbD (8 * (3 - j) + i) := by
  rw [bswap32_getLsbD v _ (by omega)]
  congr 1
  omega

/-- `TIER_W` is at most any width that holds `N + 1` values (R5). -/
theorem tierWidth_le {k : Nat} (hk : n + 1 ≤ 2 ^ k) : tierWidth n ≤ k := by
  unfold tierWidth
  by_contra hlt
  cases hfind : (List.range (n + 1)).find? fun k => decide (n + 1 ≤ 2 ^ k) with
  | none =>
    simp only [hfind, Option.getD_none] at hlt
    have hfails := List.find?_range_eq_none.mp hfind k (by omega)
    simp [hk] at hfails
  | some w =>
    simp only [hfind, Option.getD_some] at hlt
    obtain ⟨-, -, hleast⟩ := List.find?_range_eq_some.mp hfind
    have hfails := hleast k (by omega)
    simp [hk] at hfails

/-- The speed of a result is the tier's entry (R74). -/
@[simp] theorem Table.evaluation_speed (c : Table n) (tier : Fin (n + 1)) :
    (c.evaluation tier).speed = c.spd[tier] := rfl

/-- EVAL in mode CONFIGURED, as a whole step (R77). -/
theorem exec_eval_configured {b : Block n} (h : b.cfgValid = true) (arg : BitVec 32) :
    exec (.eval arg) (.of b) =
      .next (.of ((b.writeMask (b.table.newMask (wholeDegrees arg) b.mask)).respondEval
        (b.table.evaluation
          (Decoder.tier b.params.decoder (b.table.newMask (wholeDegrees arg) b.mask))))) := by
  rw [exec_eval, Block.evaluate_configured h]

end Sys2Proof.Machine
end

section
/-! PROOFS. The statements of 00_scope.md. -/

namespace Sys2Proof.Machine

/-- Settles O26, from the meaning of EVAL in mode CONFIGURED and the two bounds that fix `TIER_W`. -/
theorem evalCompletesForEveryDecoder : Obligations.EvalCompletesForEveryDecoder := by
  refine ⟨fun n arg b h => ?_, fun n => ⟨lt_two_pow_tierWidth n, fun k => tierWidth_le⟩, by decide⟩
  let m := b.table.newMask (wholeDegrees arg) b.mask
  let tier := Decoder.tier b.params.decoder m
  have htier : (b.table.evaluation tier).tier.toNat = Decoder.count b.params.decoder m :=
    b.table.evaluation_tier tier
  refine ⟨m, b.table.evaluation tier, exec_eval_configured h arg, rfl, htier, ?_, rfl, ?_⟩
  · rw [htier]
    exact Decoder.count_le _ m
  · intro k hk
    have : k = tier := Fin.ext (hk.trans htier)
    rw [this, Table.evaluation_speed]

/-- Settles O21: a strategy lists the graph of its function, and BSWAP32 mirrors each of the four bytes. -/
theorem namedDecodingStrategies : Obligations.NamedDecodingStrategies := by
  refine ⟨fun f => ⟨CfgDecode.ofFunction f, cfgDecode_ofFunction f⟩, fun w => rfl, fun w i hi => ?_,
    bswap32_bswap32⟩
  have hbyte (j : Nat) (hj : j < 4) : (cfgDecode .bswap32 w).getLsbD (8 * j + i) =
      w.getLsbD (8 * (3 - j) + i) := bswap32_byte w hi hj
  exact ⟨by simpa using hbyte 0 (by decide), hbyte 1 (by decide), hbyte 2 (by decide),
    by simpa using hbyte 3 (by decide)⟩

/-- Settles O40: a mask without a gap is the prefix mask of its count. -/
theorem prefixMasksAreTheGaplessOnes : Obligations.PrefixMasksAreTheGaplessOnes := by
  intro n m
  constructor
  · intro h
    exact ⟨popcount m, popcount_le m, h.eq_prefixMask⟩
  · rintro ⟨k, -, rfl⟩
    exact isPrefix_prefixMask k

/-- Settles O6: the instance with that move in front of its queue is the instance itself. -/
theorem stepRunsTheDecodedCommand : Obligations.StepRunsTheDecodedCommand := by
  rintro n b w bus rest i hhost rfl -
  have h := step_command b w bus rest
  rwa [withHost_eq hhost] at h

/-- Settles O8, field by field of the reset state. -/
theorem resetValuesAreTheSpecs : Obligations.ResetValuesAreTheSpecs :=
  ⟨fun _ p => ⟨Block.resetWith_cfgValid p, Block.resetWith_mask p, Block.resetWith_response p⟩,
    fun _ => ⟨rfl, rfl⟩, State.reset_eq⟩

end Sys2Proof.Machine
end

section
/-! SUPPORT. What a command can do to the table, and the relation of two instances that agree on the
architectural state: every command, step and run keeps it and answers alike. -/

namespace Sys2Proof.Machine

variable {n : Nat}

/-- LDCFG in mode CONFIGURED (R55). -/
theorem Block.loadConfig_configured {s : Block n} (h : s.cfgValid = true) :
    s.loadConfig = s.refuse .locked := by
  simp [Block.loadConfig, h]

/-- LDCFG on a bus that fails a check (R62). -/
theorem Block.loadConfig_failing {s : Block n} (h : s.cfgValid = false) {e : Status}
    (he : s.bus.configError s.params.cfgDecode = some e) : s.loadConfig = s.refuse e := by
  simp [Block.loadConfig, h, he]

/-- LDCFG on a bus that passes every check (R64). -/
theorem Block.loadConfig_passing {s : Block n} (h : s.cfgValid = false)
    (he : s.bus.configError s.params.cfgDecode = none) :
    s.loadConfig = (s.commit (s.bus.toTable s.params.cfgDecode)).respondOk := by
  simp [Block.loadConfig, h, he]

/-- A command leaves the table and `CFG_VALID` as they are, or it loads the table of a bus that passes the
checks, from mode UNCONFIGURED (R16, R19). -/
theorem exec_table_cases {i : Instr} {b b' : Block n} (h : exec i (.of b) = .next (.of b')) :
    (b'.cfgValid = b.cfgValid ∧ b'.table = b.table) ∨
    (b.cfgValid = false ∧ b.bus.configError b.params.cfgDecode = none ∧
      b'.cfgValid = true ∧ b'.table = b.bus.toTable b.params.cfgDecode) := by
  cases i with
  | nop a => rw [exec_nop] at h; cases h; exact .inl ⟨rfl, rfl⟩
  | init a => rw [exec_init] at h; cases h; exact .inl ⟨rfl, rfl⟩
  | ldcfg a =>
    rw [exec_ldcfg] at h; cases h
    obtain ⟨-, e⟩ | ⟨-, _, -, e⟩ | ⟨hv, hpass, e⟩ := b.loadConfig_cases
    · simp [e]
    · simp [e]
    · exact .inr ⟨hv, hpass, by simp [e]⟩
  | eval a =>
    rw [exec_eval] at h; cases h
    cases hv : b.cfgValid
    · simp [Block.evaluate_unconfigured hv, hv]
    · simp [Block.evaluate_configured hv, hv]

/-- In mode CONFIGURED no command touches the table or `CFG_VALID` (R55). -/
theorem exec_keeps_loaded_table {i : Instr} {b b' : Block n} (hv : b.cfgValid = true)
    (h : exec i (.of b) = .next (.of b')) : b'.cfgValid = true ∧ b'.table = b.table := by
  obtain ⟨h1, h2⟩ | ⟨hf, -⟩ := exec_table_cases h
  · exact ⟨h1.trans hv, h2⟩
  · simp [hv] at hf

/-- Where no configuration is loaded there is nothing to show of the table. -/
theorem State.tableInv_of_unconfigured {s : State} (h : s.block.cfgValid = false) : s.TableInv :=
  fun hv => Bool.noConfusion (h.symm.trans hv)

/-- Every command keeps the table invariant (R16). -/
theorem exec_tableInv {i : Instr} {b b' : Block n} (hinv : (State.of b).TableInv)
    (h : exec i (.of b) = .next (.of b')) : (State.of b').TableInv := by
  intro hv'
  obtain ⟨hv, htable⟩ | ⟨-, hpass, -, htable⟩ := exec_table_cases h
  · exact htable ▸ hinv (hv.symm.trans hv')
  · exact htable ▸ Bus.toTable_valid hpass

/-- Two instances agree on the architectural state that holds a value (R10, R16): `CFG_VALID`, `MASK`, the
parameters and, in mode CONFIGURED, the table. -/
structure Block.ArchEq (b₁ b₂ : Block n) : Prop where
  cfgValid : b₁.cfgValid = b₂.cfgValid
  mask : b₁.mask = b₂.mask
  params : b₁.params = b₂.params
  table : b₁.cfgValid = true → b₁.table = b₂.table

variable {b₁ b₂ : Block n}

theorem Block.ArchEq.refuse (h : b₁.ArchEq b₂) (st : Status) : (b₁.refuse st).ArchEq (b₂.refuse st) :=
  ⟨h.cfgValid, h.mask, h.params, h.table⟩

theorem Block.ArchEq.respondOk (h : b₁.ArchEq b₂) : b₁.respondOk.ArchEq b₂.respondOk :=
  ⟨h.cfgValid, h.mask, h.params, h.table⟩

theorem Block.ArchEq.respondEval (h : b₁.ArchEq b₂) (e : Evaluation) :
    (b₁.respondEval e).ArchEq (b₂.respondEval e) :=
  ⟨h.cfgValid, h.mask, h.params, h.table⟩

theorem Block.ArchEq.writeMask (h : b₁.ArchEq b₂) (m : Mask n) :
    (b₁.writeMask m).ArchEq (b₂.writeMask m) :=
  ⟨h.cfgValid, rfl, h.params, h.table⟩

theorem Block.ArchEq.commit (h : b₁.ArchEq b₂) (c : Table n) : (b₁.commit c).ArchEq (b₂.commit c) :=
  ⟨rfl, h.mask, h.params, fun _ => rfl⟩

/-- The two fresh draws may differ: after a reset mark the table holds no value. -/
theorem Block.ArchEq.applyReset (h : b₁.ArchEq b₂) (rest : List (HostMove n)) :
    (b₁.applyReset rest).ArchEq (b₂.applyReset rest) :=
  ⟨rfl, by simp [h.params], h.params, nofun⟩

/-- LDCFG of one bus does the same to both and answers alike. -/
theorem Block.ArchEq.loadConfig (h : b₁.ArchEq b₂) (hbus : b₁.bus = b₂.bus) :
    b₁.loadConfig.ArchEq b₂.loadConfig ∧ b₁.loadConfig.response = b₂.loadConfig.response := by
  obtain ⟨hv, e⟩ | ⟨hv, st, herr, e⟩ | ⟨hv, herr, e⟩ := b₁.loadConfig_cases
  · rw [e, Block.loadConfig_configured (h.cfgValid ▸ hv)]
    exact ⟨h.refuse _, rfl⟩
  · rw [hbus, h.params] at herr
    rw [e, Block.loadConfig_failing (h.cfgValid ▸ hv) herr]
    exact ⟨h.refuse _, rfl⟩
  · rw [hbus, h.params] at herr
    rw [e, Block.loadConfig_passing (h.cfgValid ▸ hv) herr, hbus, h.params]
    exact ⟨(h.commit _).respondOk, rfl⟩

/-- EVAL at one temperature does the same to both and answers alike. -/
theorem Block.ArchEq.evaluate (h : b₁.ArchEq b₂) (arg : Word) :
    (b₁.evaluate arg).ArchEq (b₂.evaluate arg) ∧
      (b₁.evaluate arg).response = (b₂.evaluate arg).response := by
  cases hv : b₁.cfgValid
  · rw [Block.evaluate_unconfigured hv, Block.evaluate_unconfigured (h.cfgValid ▸ hv)]
    exact ⟨h.refuse _, rfl⟩
  · rw [Block.evaluate_configured hv, Block.evaluate_configured (h.cfgValid ▸ hv), h.table hv, h.mask,
      h.params]
    exact ⟨(h.writeMask _).respondEval _, rfl⟩

/-- Every command over one bus keeps the agreement and answers alike. -/
theorem Block.ArchEq.exec (h : b₁.ArchEq b₂) (hbus : b₁.bus = b₂.bus) {i : Instr} {b₁' : Block n}
    (he : exec i (.of b₁) = .next (.of b₁')) :
    ∃ b₂' : Block n, exec i (.of b₂) = .next (.of b₂') ∧ b₁'.ArchEq b₂' ∧
      b₁'.response = b₂'.response := by
  cases i with
  | nop a => rw [exec_nop] at he; cases he; exact ⟨_, exec_nop a b₂, h.respondOk, rfl⟩
  | init a =>
    rw [exec_init] at he; cases he
    exact ⟨_, exec_init a b₂, h.params ▸ (h.writeMask _).respondOk, rfl⟩
  | ldcfg a => rw [exec_ldcfg] at he; cases he; exact ⟨_, exec_ldcfg a b₂, h.loadConfig hbus⟩
  | eval a => rw [exec_eval] at he; cases he; exact ⟨_, exec_eval a b₂, h.evaluate a⟩

/-- Every step on one move keeps the agreement and answers alike. A command brings its own bus. -/
theorem Block.ArchEq.step (h : b₁.ArchEq b₂) {m : HostMove n} {ms : List (HostMove n)} {b₁' : Block n}
    (hs : step (.of { b₁ with host := m :: ms }) = .next (.of b₁')) :
    ∃ b₂' : Block n, step (.of { b₂ with host := m :: ms }) = .next (.of b₂') ∧ b₁'.ArchEq b₂' ∧
      b₁'.response = b₂'.response := by
  cases m with
  | command w bus =>
    rw [step_command] at hs ⊢
    have hpresented : ({ b₁ with host := ms, bus := bus } : Block n).ArchEq
        { b₂ with host := ms, bus := bus } := ⟨h.cfgValid, h.mask, h.params, h.table⟩
    exact hpresented.exec rfl hs
  | reset => rw [step_reset] at hs; cases hs; exact ⟨_, step_reset b₂ ms, h.applyReset ms, rfl⟩
  | breach b => cases hs

/-- Every run of one stream keeps the agreement and has the same responses. -/
theorem Block.ArchEq.runMoves {ms : List (HostMove n)} {b₁' : Block n} {rs : List Response}
    (h : b₁.ArchEq b₂) (hr : runMoves ms b₁ = .next (rs, .of b₁')) :
    ∃ b₂' : Block n, runMoves ms b₂ = .next (rs, .of b₂') ∧ b₁'.ArchEq b₂' := by
  induction ms generalizing b₁ b₂ rs with
  | nil =>
    rw [runMoves_nil] at hr; cases hr
    exact ⟨_, runMoves_nil b₂, h.cfgValid, h.mask, h.params, h.table⟩
  | cons m ms ih =>
    obtain ⟨c₁, rs', hstep₁, hrest₁, rfl⟩ := runMoves_cons_cases hr
    obtain ⟨c₂, hstep₂, hc, hresponse⟩ := h.step hstep₁
    obtain ⟨b₂', hrest₂, hb'⟩ := ih hc hrest₁
    exact ⟨b₂', hresponse ▸ runMoves_cons hstep₂ hrest₂, hb'⟩

/-- Agreement on the architectural state is agreement on all that R138 lets an observer see. -/
theorem Block.ArchEq.observation_eq (h : b₁.ArchEq b₂) (rs : List Response) :
    (State.of b₁).observation rs = (State.of b₂).observation rs := by
  cases hv : b₁.cfgValid
  · simp [State.observation, ← h.cfgValid, hv, h.mask]
  · simp [State.observation, ← h.cfgValid, hv, h.mask, h.table hv]

end Sys2Proof.Machine
end

section
/-! PROOFS. The statements of 10_state.md. -/

namespace Sys2Proof.Machine

/-- Settles O35: with no command the table stands, a command keeps the invariant (`exec_tableInv`), and
after a reset mark no configuration is loaded. -/
theorem stepKeepsTheTableValid : Obligations.StepKeepsTheTableValid := by
  rintro ⟨n, b⟩ t hinv h
  obtain ⟨-, rfl⟩ | ⟨w, bus, rest, -, hexec⟩ | ⟨rest, -, rfl⟩ := step_cases h
  · exact hinv
  · obtain ⟨b', rfl, -⟩ := exec_frame hexec
    have hpresented : (State.of (b.present bus rest)).TableInv := hinv
    exact exec_tableInv hpresented hexec
  · exact State.tableInv_of_unconfigured (b.applyReset_cfgValid rest)

/-- Settles O23, by induction on the stream: in mode CONFIGURED no command touches the table. -/
theorem tableIsImmutableUntilReset : Obligations.TableIsImmutableUntilReset := by
  intro n ms b b' rs hv hcommands hrun
  induction ms generalizing b rs with
  | nil => rw [runMoves_nil] at hrun; cases hrun; exact ⟨hv, rfl⟩
  | cons m ms ih =>
    obtain ⟨hm, hms⟩ := List.forall_mem_cons.mp hcommands
    obtain ⟨c, rs', hstep, hrest, -⟩ := runMoves_cons_cases hrun
    cases m with
    | command w bus =>
      rw [step_command] at hstep
      obtain ⟨hvc, htable⟩ :=
        exec_keeps_loaded_table (b := { b with host := ms, bus := bus }) hv hstep
      obtain ⟨hv', htable'⟩ := ih c rs' hvc hms hrest
      exact ⟨hv', htable'.trans htable⟩
    | reset => cases hm
    | breach _ => cases hm

/-- Settles O55: every run keeps the agreement on the architectural state, and that is all the observer
sees. -/
theorem onlyTheArchitecturalStateIsObservable : Obligations.OnlyTheArchitecturalStateIsObservable := by
  intro n ms b₁ b₂ t rs hvalid hmask hparams htable hrun
  obtain ⟨b₁', rfl, -⟩ := runMoves_frame hrun
  have hagree : b₁.ArchEq b₂ := ⟨hvalid, hmask, hparams, htable⟩
  obtain ⟨b₂', hrun₂, hagree'⟩ := hagree.runMoves hrun
  exact ⟨.of b₂', hrun₂, (hagree'.observation_eq rs).symm⟩

/-- Settles O36: at reset no configuration is loaded. -/
theorem resetHasTheTableInvariant : Obligations.ResetHasTheTableInvariant :=
  ⟨State.tableInv_of_unconfigured rfl,
    fun _ p => State.tableInv_of_unconfigured (Block.resetWith_cfgValid p)⟩

end Sys2Proof.Machine
end

section
/-! SUPPORT. A step does the same whatever moves are pending behind the one it takes. -/

namespace Sys2Proof.Machine

variable {n : Nat}

/-- A step on a move does the same with another queue behind it, and leaves that queue. -/
theorem step_otherQueue {m : HostMove n} {ms : List (HostMove n)} {b b' : Block n}
    (h : step (.of { b with host := m :: ms }) = .next (.of b')) (q : List (HostMove n)) :
    step (.of { b with host := m :: q }) = .next (.of { b' with host := q }) := by
  cases m with
  | command w bus => rw [step_command] at h ⊢; exact exec_otherQueue h q
  | reset => rw [step_reset] at h ⊢; cases h; rfl
  | breach _ => cases h

end Sys2Proof.Machine
end

section
/-! PROOFS. The statements of 20_memory.md. -/

namespace Sys2Proof.Machine

/-- Settles O57, by induction on the first stream: its first step does the same with the second stream
pending too, and a run puts its own stream in the place of whatever is pending. -/
theorem runsCompose : Obligations.RunsCompose := by
  intro n ms ms' b b' u rs rs' hfirst hsecond
  induction ms generalizing b rs with
  | nil => rw [runMoves_nil] at hfirst; cases hfirst; exact hsecond
  | cons m ms ih =>
    obtain ⟨c, rs₁, hstep, hrest, rfl⟩ := runMoves_cons_cases hfirst
    have hboth : runMoves (ms ++ ms') c = .next (rs₁ ++ rs', u) := ih c rs₁ hrest
    rw [List.append_assoc]
    exact runMoves_cons (b' := { c with host := ms ++ ms' }) (step_otherQueue hstep _) hboth

end Sys2Proof.Machine
end

section
/-! SUPPORT. The command word as its two fields, the opcode table's mask, what answers and what reads the
operand bus, and the raw arrays of an assembled LDCFG. -/

namespace Sys2Proof.Laws.Encoding

@[simp] theorem op_encode (i : Instr) : CmdWord.op (encode i) = i.opcode := op_joinFields _ _
@[simp] theorem arg_encode (i : Instr) : CmdWord.arg (encode i) = i.argField := arg_joinFields _ _

/-- A word has one of the four opcodes (R39). -/
theorem op_cases (w : CmdWord) :
    CmdWord.op w = 0b00#2 ∨ CmdWord.op w = 0b01#2 ∨ CmdWord.op w = 0b10#2 ∨ CmdWord.op w = 0b11#2 := by
  generalize CmdWord.op w = o
  revert o
  decide

/-- The decoder said once: a word is the command whose opcode and `arg` are its two fields (R38, R39). -/
theorem decode_eq_iff (w : CmdWord) (i : Instr) :
    decode w = i ↔ CmdWord.op w = i.opcode ∧ CmdWord.arg w = i.argField := by
  constructor
  · rintro rfl
    obtain ho | ho | ho | ho := op_cases w <;> simp [decode, ho, Instr.opcode, Instr.argField]
  · rintro ⟨ho, ha⟩
    cases i <;> simp_all [decode, Instr.opcode, Instr.argField]

theorem decode_encode (i : Instr) : decode (encode i) = i :=
  (decode_eq_iff _ _).mpr ⟨op_encode i, arg_encode i⟩

theorem encode_decode (w : CmdWord) : encode (decode w) = w := by
  obtain ⟨hop, harg⟩ := (decode_eq_iff w _).mp rfl
  rw [encode, ← hop, ← harg, joinFields_op_arg]

/-- Under the mask of opcode_table.json a word keeps its opcode and loses its `arg`. -/
theorem and_opcodeMask (w : CmdWord) : w &&& 0x300000000#34 = joinFields (CmdWord.op w) 0 := by
  have hmask : 0x300000000#34 = joinFields (BitVec.allOnes 2) 0 := by decide
  apply BitVec.eq_of_getLsbD_eq
  intro k hk
  rw [hmask, BitVec.getLsbD_and]
  conv_lhs => rw [← joinFields_op_arg w]
  simp only [getLsbD_joinFields]
  split
  · simp
  · have hbit : k - 32 < 2 := by omega
    rw [BitVec.getLsbD_allOnes, decide_eq_true hbit, Bool.and_true]

/-- A word meets the match of a table row exactly when it has the row's opcode. -/
theorem and_opcodeMask_eq_iff (w : CmdWord) (o : BitVec 2) :
    w &&& 0x300000000#34 = joinFields o 0 ↔ CmdWord.op w = o := by
  rw [and_opcodeMask]
  refine ⟨fun h => ?_, fun h => h ▸ rfl⟩
  simpa [op_joinFields] using congrArg CmdWord.op h

end Sys2Proof.Laws.Encoding

namespace Sys2Proof.Machine

variable {n : Nat}

/-- LDCFG never answers with a result (R44). -/
theorem Block.loadConfig_response (s : Block n) :
    ∃ st, s.loadConfig.response = some { status := st, result := none } := by
  obtain ⟨-, e⟩ | ⟨-, st, -, e⟩ | ⟨-, -, e⟩ := s.loadConfig_cases
  · exact ⟨.locked, by rw [e, Block.refuse_response]⟩
  · exact ⟨st, by rw [e, Block.refuse_response]⟩
  · exact ⟨.ok, by rw [e, Block.respondOk_response]⟩

/-- EVAL answers with a result exactly when it completes (R44, R68, R76). -/
theorem Block.evaluate_result_iff {s : Block n} {arg : Word} {r : Response}
    (h : (s.evaluate arg).response = some r) : r.result.isSome = true ↔ r.status = .ok := by
  cases hv : s.cfgValid
  · rw [Block.evaluate_unconfigured hv] at h
    cases h
    simp
  · rw [Block.evaluate_configured hv] at h
    cases h
    simp

/-- EVAL does not read the operand bus (R37). -/
theorem Block.evaluate_otherBus (s : Block n) (arg : Word) (bus : Bus n) :
    ({ s with bus := bus } : Block n).evaluate arg = { s.evaluate arg with bus := bus } := by
  obtain hv | hv := Bool.eq_false_or_eq_true s.cfgValid
  · rw [Block.evaluate_configured hv, Block.evaluate_configured (s := { s with bus := bus }) hv]
    rfl
  · rw [Block.evaluate_unconfigured hv, Block.evaluate_unconfigured (s := { s with bus := bus }) hv]
    rfl

/-- Assembling an integer of the unsigned 32-bit range and reading it back. -/
theorem uint_ofInt {v : Int} (h1 : 0 ≤ v) (h2 : v < 4294967296) :
    (uint (BitVec.ofInt 32 v) : Int) = v := by
  simp only [uint, BitVec.toNat_ofInt]
  omega

/-- With the length operand the array needs, a list fits when it fills the array (R47). -/
theorem ConfigText.listFits_self_iff {slots given : Nat} :
    ConfigText.listFits slots slots given = true ↔ given = slots := by
  simp [ConfigText.listFits]

section RawArray

variable {d : CfgDecode} {base k : Nat} {vs : List Int}

/-- A raw slot the list fills decodes to the 32-bit pattern of its value (R47). -/
theorem cfgDecode_rawArray (hd : CfgDecode.invertible d = true) (i : Fin k) {v : Int}
    (hv : vs[i.val]? = some v) : cfgDecode d (rawArray d base k vs)[i] = BitVec.ofInt 32 v := by
  simp [rawArray, hv, rawWord, cfgDecode_cfgEncode hd]

/-- A list that fills its array is read back from it as signed values (R43, R47). -/
theorem getElem?_eq_sint_rawArray (hd : CfgDecode.invertible d = true) (hlen : vs.length = k)
    (hfits : vs.all fitsSigned = true) (i : Fin k) :
    vs[i.val]? = some (sint (cfgDecode d (rawArray d base k vs)[i])) := by
  have hi : i.val < vs.length := hlen ▸ i.isLt
  have hv : vs[i.val]? = some vs[i.val] := List.getElem?_eq_getElem hi
  obtain ⟨hlow, hhigh⟩ := of_decide_eq_true (List.all_eq_true.mp hfits _ (List.getElem_mem hi))
  rw [cfgDecode_rawArray hd i hv, sint_ofInt hlow hhigh, hv]

/-- A list that fills its array is read back from it as unsigned values (R43, R47). -/
theorem getElem?_eq_uint_rawArray (hd : CfgDecode.invertible d = true) (hlen : vs.length = k)
    (hfits : vs.all fitsUnsigned = true) (i : Fin k) :
    vs[i.val]? = some (uint (cfgDecode d (rawArray d base k vs)[i]) : Int) := by
  have hi : i.val < vs.length := hlen ▸ i.isLt
  have hv : vs[i.val]? = some vs[i.val] := List.getElem?_eq_getElem hi
  obtain ⟨hlow, hhigh⟩ := of_decide_eq_true (List.all_eq_true.mp hfits _ (List.getElem_mem hi))
  rw [cfgDecode_rawArray hd i hv, uint_ofInt hlow hhigh, hv]

end RawArray

/-- A well-formed LDCFG line assembles to one LDCFG over the bus of its text (R47). -/
theorem Line.assemble_ldcfg {d : CfgDecode} {c : ConfigText} (hd : CfgDecode.invertible d = true)
    (hc : c.wellFormed n = true) :
    Line.assemble n d (.ldcfg c) = some [HostMove.ofInstr (.ldcfg 0) (ConfigText.toBus n d c)] := by
  have hline : (Line.ldcfg c).wellFormed n = true := hc
  simp [Line.assemble, hline, hd, Line.toInstr, Line.toBus]

end Sys2Proof.Machine
end

section
/-! PROOFS. The statements of 30_encoding.md. -/

namespace Sys2Proof.Machine

open Sys2Proof.Laws.Encoding (decode_eq_iff decode_encode encode_decode and_opcodeMask_eq_iff)

/-- Settles O2: a command and a word are each their opcode and `arg`. -/
theorem decodeEncodeAreInverse : Obligations.DecodeEncodeAreInverse :=
  ⟨decode_encode, encode_decode⟩

/-- Settles O4: the row's match is its opcode with a zero `arg`, and the mask keeps the opcode alone. -/
theorem tableRowsSelectTheCommand : Obligations.TableRowsSelectTheCommand := by
  intro w
  have hrow (command : BitVec 32 → Instr) (o : BitVec 2) (ho : ∀ a, (command a).opcode = o)
      (harg : ∀ a, (command a).argField = a) :
      (∃ a, decode w = command a) ↔ w &&& 0x300000000#34 = joinFields o 0 := by
    rw [and_opcodeMask_eq_iff]
    simp [decode_eq_iff, ho, harg]
  exact ⟨hrow .nop 0b00#2 (fun _ => rfl) fun _ => rfl, hrow .ldcfg 0b01#2 (fun _ => rfl) fun _ => rfl,
    hrow .init 0b10#2 (fun _ => rfl) fun _ => rfl, hrow .eval 0b11#2 (fun _ => rfl) fun _ => rfl⟩

/-- Settles O51: only EVAL can answer with a result, and it does when it completes. -/
theorem resultsComeFromCompletedEvals : Obligations.ResultsComeFromCompletedEvals := by
  rintro i ⟨n, b⟩ t r h hr
  cases i with
  | nop a => rw [exec_nop] at h; cases h; cases hr; simp
  | init a => rw [exec_init] at h; cases h; cases hr; simp
  | ldcfg a =>
    rw [exec_ldcfg] at h; cases h
    obtain ⟨st, hst⟩ := b.loadConfig_response
    cases hst.symm.trans hr
    simp
  | eval a =>
    rw [exec_eval] at h; cases h
    simpa using Block.evaluate_result_iff hr

/-- Settles O54, command by command. -/
theorem operandBusIsIgnoredOutsideLdcfg : Obligations.OperandBusIsIgnoredOutsideLdcfg := by
  intro n i b b' bus hne h
  cases i with
  | nop a => rw [exec_nop] at h ⊢; cases h; rfl
  | init a => rw [exec_init] at h ⊢; cases h; rfl
  | ldcfg a => exact absurd rfl (hne a)
  | eval a => rw [exec_eval] at h ⊢; cases h; rw [Block.evaluate_otherBus]

/-- Settles O59: `d * 1000` fits a signed word, and a thousandth of it is `d`. -/
theorem evalcEvaluatesAtWholeDegrees : Obligations.EvalcEvaluatesAtWholeDegrees := by
  intro d hlow hhigh
  have hread : sint (BitVec.ofInt 32 (d * 1000)) = d * 1000 := sint_ofInt (by omega) (by omega)
  refine ⟨rfl, fun n => ⟨?_, ?_⟩, BitVec.ofInt 32 (d * 1000), rfl, hread, ?_⟩
  · exact decide_eq_true ⟨hlow, hhigh⟩
  · exact decide_eq_true (by omega)
  · rw [wholeDegrees, hread, tdiv_eq _ (by decide), Int.mul_tdiv_cancel d (by decide)]

/-- Settles O60: with the right lengths every list fills its array, and each raw word decodes to the value
it was assembled from. -/
theorem assembledLdcfgDecodesToItsText : Obligations.AssembledLdcfgDecodesToItsText := by
  intro n d c hbij hc hlenThr hlenHys hlenSpd
  have hd : CfgDecode.invertible d = true := (CfgDecode.invertible_iff d).mpr hbij
  have hwf := hc
  simp only [ConfigText.wellFormed, hlenThr, hlenHys, hlenSpd, ConfigText.listFits_self_iff,
    Bool.and_eq_true, decide_eq_true_eq] at hwf
  obtain ⟨⟨⟨⟨⟨⟨⟨hbyte, hthr⟩, hhys⟩, hspd⟩, fthr⟩, fhys⟩, fspd⟩, hperiod⟩ := hwf
  refine ⟨ConfigText.toBus n d c, Line.assemble_ldcfg hd hc, ?_, fun i => ⟨?_, ?_⟩, fun k => ?_, ?_⟩
  · simp only [Bus.LengthsRight, uint, ConfigText.toBus, BitVec.toNat_ofNat]
    omega
  · exact getElem?_eq_sint_rawArray hd hthr fthr i
  · exact getElem?_eq_sint_rawArray hd hhys fhys i
  · exact getElem?_eq_uint_rawArray hd hspd fspd k
  · simp only [ConfigText.toBus, BitVec.toNat_ofNat]
    omega

/-- Settles O1: the decoded command is the one with the word's two fields. -/
theorem opcodeMapDecodesEveryWord : Obligations.OpcodeMapDecodesEveryWord := by
  intro w
  exact ⟨fun h => (decode_eq_iff w _).mpr ⟨h, rfl⟩, fun h => (decode_eq_iff w _).mpr ⟨h, rfl⟩,
    fun h => (decode_eq_iff w _).mpr ⟨h, rfl⟩, fun h => (decode_eq_iff w _).mpr ⟨h, rfl⟩⟩

/-- Settles O3: the six words by evaluation, and their commands by the round trip. -/
theorem encodingExamplesHold : Obligations.EncodingExamplesHold := by
  have hnop : encode (.nop 0) = 0x000000000#34 := by decide
  have hldcfg : encode (.ldcfg 0) = 0x100000000#34 := by decide
  have hinit : encode (.init 0) = 0x200000000#34 := by decide
  have hwarm : encode (.eval (BitVec.ofInt 32 42000)) = 0x30000A410#34 := by decide
  have hcold : encode (.eval (BitVec.ofInt 32 (-1))) = 0x3FFFFFFFF#34 := by decide
  have hleast : encode (.eval (BitVec.ofInt 32 (-2147483648))) = 0x380000000#34 := by decide
  exact ⟨hnop, hldcfg, hinit, hwarm, hcold, hleast, hnop ▸ decode_encode _, hldcfg ▸ decode_encode _,
    hinit ▸ decode_encode _, hwarm ▸ decode_encode _, hcold ▸ decode_encode _,
    hleast ▸ decode_encode _⟩

/-- Settles O5: the meanings of the three commands do not mention `arg`. -/
theorem ignoredArgHasNoEffect : Obligations.IgnoredArgHasNoEffect :=
  ⟨fun _ _ _ => ⟨rfl, rfl, rfl⟩, rfl, rfl, fun _ => rfl⟩

/-- Settles O52, status by status. -/
theorem statusCodes : Obligations.StatusCodes := by
  refine ⟨rfl, rfl, rfl, rfl, rfl, rfl, rfl, fun st => ?_⟩
  cases st <;> decide

end Sys2Proof.Machine
end

section
/-! SUPPORT. Which status LDCFG answers, check by check, what a refusal leaves for the next LDCFG, and the
fields of the committed table as numbers. -/

namespace Sys2Proof.Machine

variable {n : Nat} {d : CfgDecode} {b : Bus n}

/-- The length check is the first (R57). -/
theorem Bus.configError_eq_invalidLength_iff :
    b.configError d = some .invalidLength ↔ ¬ b.LengthsRight := by
  rw [Bus.configError]
  split_ifs with hlen <;> simp [hlen]

/-- The monotonicity check is the second (R58). -/
theorem Bus.configError_eq_nonMonotonic_iff (hlen : b.LengthsRight) :
    b.configError d = some .nonMonotonic ↔ b.Decreasing d := by
  rw [Bus.configError, if_neg (not_not_intro hlen)]
  split_ifs with hdec <;> simp [hdec]

/-- The hysteresis check is the third (R59). -/
theorem Bus.configError_eq_invalidHysteresis_iff (hlen : b.LengthsRight) (hdec : ¬ b.Decreasing d) :
    b.configError d = some .invalidHysteresis ↔ b.HysteresisAbove d := by
  rw [Bus.configError, if_neg (not_not_intro hlen), if_neg hdec]
  split_ifs with hhys <;> simp [hhys]

/-- The speed check is the last (R60). -/
theorem Bus.configError_eq_invalidSpeed_iff (hlen : b.LengthsRight) (hdec : ¬ b.Decreasing d)
    (hhys : ¬ b.HysteresisAbove d) : b.configError d = some .invalidSpeed ↔ b.SpeedAbove d := by
  rw [Bus.configError, if_neg (not_not_intro hlen), if_neg hdec, if_neg hhys]
  split_ifs with hspd <;> simp [hspd]

/-- A refusal shows its status. -/
theorem Block.refuse_inj {s : Block n} {st st' : Status} : s.refuse st = s.refuse st' ↔ st = st' := by
  refine ⟨fun h => ?_, fun h => h ▸ rfl⟩
  simpa using congrArg Block.response h

/-- In mode UNCONFIGURED LDCFG is refused with a status, and nothing else changes, exactly when that is the
status of the first failing check (R54, R62). -/
theorem exec_ldcfg_eq_refuse_iff {s : Block n} (hv : s.cfgValid = false) (a : BitVec 32) (st : Status) :
    exec (.ldcfg a) (.of s) = .next (.of (s.refuse st)) ↔
      s.bus.configError s.params.cfgDecode = some st := by
  rw [exec_ldcfg, Host.Outcome.next.injEq, State.of_inj]
  cases he : s.bus.configError s.params.cfgDecode with
  | none =>
    rw [Block.loadConfig_passing hv he]
    refine ⟨fun h => ?_, nofun⟩
    simpa [hv] using congrArg Block.cfgValid h
  | some e => rw [Block.loadConfig_failing hv he, Block.refuse_inj, Option.some.injEq]

/-- An LDCFG that does not answer OK is refused with the status it answers (R105). -/
theorem Block.loadConfig_of_not_ok {s : Block n} {r : Response} (hr : s.loadConfig.response = some r)
    (hne : r.status ≠ .ok) : s.loadConfig = s.refuse r.status := by
  obtain ⟨-, e⟩ | ⟨-, st, -, e⟩ | ⟨-, -, e⟩ := s.loadConfig_cases
  · rw [e] at hr ⊢; cases hr; rfl
  · rw [e] at hr ⊢; cases hr; rfl
  · rw [e] at hr; cases hr; exact absurd rfl hne

/-- LDCFG after a refusal does what it would have done without it (R55). -/
theorem Block.loadConfig_refuse (s : Block n) (st : Status) :
    (s.refuse st).loadConfig = s.loadConfig := by
  obtain ⟨hv, e⟩ | ⟨hv, st', herr, e⟩ | ⟨hv, hpass, e⟩ := s.loadConfig_cases
  · rw [e, Block.loadConfig_configured (s := s.refuse st) hv]; rfl
  · rw [e, Block.loadConfig_failing (s := s.refuse st) hv herr]; rfl
  · rw [e, Block.loadConfig_passing (s := s.refuse st) hv hpass]; rfl

/-- Speeds that pass the check fit the stored width (R13, R64). -/
theorem Bus.toTable_spd_toNat (hspd : ¬ b.SpeedAbove d) (k : Fin (n + 1)) :
    (b.toTable d).spd[k].toNat = (cfgDecode d b.spdRaw[k]).toNat := by
  have hle : (cfgDecode d b.spdRaw[k]).toNat ≤ 100 := not_lt.mp fun h => hspd ⟨k, h⟩
  simp only [Bus.toTable, Fin.getElem_fin, Vector.getElem_ofFn, BitVec.extractLsb'_toNat,
    Nat.shiftRight_zero] at hle ⊢
  omega

/-- The precomputed quotient fits `DPP` (R63). -/
theorem Bus.toTable_dpp_toNat : (b.toTable d).dpp.toNat = b.period.toNat / 100 := by
  have hp := b.period.isLt
  simp only [Bus.toTable, Bus.dpp, uint, fdiv, BitVec.toNat_ofNat]
  omega

/-- With the least hysteresis threshold a band is falling at every temperature (R69). -/
theorem Table.falling_of_hys_eq_least {c : Table n} {i : Fin n} (h : sint c.hys[i] = -2147483648)
    (arg : Word) : c.falling (wholeDegrees arg) i = true := by
  have hlow := (sint_range arg).1
  have hbounds := tdiv_bounds (sint arg)
  rw [Table.falling_iff, h, wholeDegrees]
  omega

end Sys2Proof.Machine
end

section
/-! PROOFS. The statements of 40_ldcfg.md. -/

namespace Sys2Proof.Machine

/-- Settles O15: the mode check comes first, and a refusal leaves only its response, which LDCFG does not
read. -/
theorem loadIsLockedOnceConfigured : Obligations.LoadIsLockedOnceConfigured := by
  refine ⟨rfl, fun n a b hv => ?_, fun n a a' b b' r bus _ hexec hr hne => ?_⟩
  · rw [exec_ldcfg, Block.loadConfig_configured hv]; rfl
  · rw [exec_ldcfg] at hexec
    cases hexec
    rw [Block.loadConfig_of_not_ok hr hne, exec_ldcfg, exec_ldcfg, Host.Outcome.next.injEq, State.of_inj]
    exact Block.loadConfig_refuse { b with bus := bus } r.status

/-- Settles O16: LDCFG answers the first failing check, and the length check is the first. -/
theorem lengthCheck : Obligations.LengthCheck := by
  refine ⟨rfl, fun n a b hv => ?_, fun bus => ?_⟩
  · have hlengths : ¬ b.bus.LengthsRight ↔
        b.bus.lenThr.toNat ≠ n ∨ b.bus.lenHys.toNat ≠ n ∨ b.bus.lenSpd.toNat ≠ n + 1 := by
      simp only [Bus.LengthsRight, not_and_or, ne_eq]
    exact (exec_ldcfg_eq_refuse_iff hv a _).trans (Bus.configError_eq_invalidLength_iff.trans hlengths)
  · simp [Bus.LengthsRight, BitVec.toNat_eq]

/-- Settles O17: with the lengths right the monotonicity check is the first that can fail; one band has no
neighbour. -/
theorem monotonicityCheck : Obligations.MonotonicityCheck := by
  refine ⟨rfl, fun n a b hv hlen => ?_, ?_⟩
  · exact (exec_ldcfg_eq_refuse_iff hv a _).trans (Bus.configError_eq_nonMonotonic_iff hlen)
  · rintro d bus ⟨i, j, hij, -⟩
    omega

/-- Settles O18: the hysteresis check is the third, and at the least hysteresis threshold a latched band is
falling at every temperature, which keeps its bit. -/
theorem hysteresisCheck : Obligations.HysteresisCheck := by
  refine ⟨rfl, fun n a b hv hlen hdec => ?_, fun n arg b b' i hhys hbit hexec => ?_⟩
  · exact (exec_ldcfg_eq_refuse_iff hv a _).trans (Bus.configError_eq_invalidHysteresis_iff hlen hdec)
  · rw [exec_eval] at hexec
    cases hexec
    cases hv : b.cfgValid
    · rwa [Block.evaluate_unconfigured hv]
    · rw [Block.evaluate_configured hv, Block.respondEval_mask, Block.writeMask_mask,
        Table.newMask_bit, Table.falling_of_hys_eq_least hhys, hbit]
      simp

/-- Settles O19: the speed check is the last. -/
theorem speedCheck : Obligations.SpeedCheck :=
  ⟨rfl, fun _ a _ hv hlen hdec hhys => (exec_ldcfg_eq_refuse_iff hv a _).trans
    (Bus.configError_eq_invalidSpeed_iff hlen hdec hhys)⟩

/-- Settles O20: a bus that passes every check commits its table, whose narrowed fields lose nothing. -/
theorem loadCommitsTheWholeTable : Obligations.LoadCommitsTheWholeTable := by
  intro n a b hv hlen hdec hhys hspd
  have hpass : b.bus.configError b.params.cfgDecode = none :=
    (Bus.configError_eq_none_iff _ _).mpr ⟨hlen, hdec, hhys, hspd⟩
  refine ⟨b.bus.toTable b.params.cfgDecode, ?_, fun i => ⟨?_, ?_⟩, Bus.toTable_spd_toNat hspd, rfl,
    Bus.toTable_dpp_toNat, ?_⟩
  · rw [exec_ldcfg, Block.loadConfig_passing hv hpass]; rfl
  · simp [Bus.toTable]
  · simp [Bus.toTable]
  · have hp := b.bus.period.isLt
    rw [Bus.toTable_dpp_toNat]
    omega

end Sys2Proof.Machine
end

section
/-! SUPPORT. EVAL as a whole step in mode UNCONFIGURED and on the mask alone, the exact product under R16,
the three regions of a band, and where each decoder stands against the prefix masks. -/

namespace Sys2Proof.Machine

variable {n : Nat}

/-- EVAL in mode UNCONFIGURED, as a whole step (R68). -/
theorem exec_eval_unconfigured {b : Block n} (h : b.cfgValid = false) (arg : BitVec 32) :
    exec (.eval arg) (.of b) = .next (.of (b.refuse .notConfigured)) := by
  rw [exec_eval, Block.evaluate_unconfigured h]

/-- The mask an EVAL in mode CONFIGURED leaves (R71). -/
theorem exec_eval_mask {b b' : Block n} {arg : BitVec 32} (h : b.cfgValid = true)
    (hexec : exec (.eval arg) (.of b) = .next (.of b')) :
    b'.mask = b.table.newMask (wholeDegrees arg) b.mask := by
  rw [exec_eval_configured h] at hexec
  cases hexec
  rfl

/-- A table as R16 says never pays out more than its period (R75, R92). -/
theorem Table.Valid.duty_le {c : Table n} (h : c.Valid) (tier : Fin (n + 1)) :
    c.duty tier ≤ uint c.period := by
  calc c.duty tier = c.speed tier * (uint c.period / 100) := by rw [Table.duty, h.dppEq, fdiv]
    _ ≤ 100 * (uint c.period / 100) := Nat.mul_le_mul_right _ (h.spdLe tier)
    _ ≤ uint c.period := Nat.mul_div_le _ _

/-- Under R16 the duty field holds the product exactly (R75, R92). -/
theorem Table.Valid.evaluation_duty {c : Table n} (h : c.Valid) (tier : Fin (n + 1)) :
    (c.evaluation tier).duty.toNat = c.duty tier := by
  have hfits : c.duty tier < 2 ^ 32 := (h.duty_le tier).trans_lt c.period.isLt
  simp only [Table.evaluation, BitVec.toNat_ofNat, Nat.mod_eq_of_lt hfits]

/-- The speed of a result is the entry its own tier field names (R74). -/
theorem Table.evaluation_speed_of_tier (c : Table n) {tier k : Fin (n + 1)} :
    k.val = (c.evaluation tier).tier.toNat → (c.evaluation tier).speed = c.spd[k] := by
  intro hk
  have hktier : k = tier := Fin.ext (hk.trans (c.evaluation_tier tier))
  rw [hktier, Table.evaluation_speed]

section Regions

variable {c : Table n} {t : Int} {i : Fin n}

/-- When a band is not rising (R69). -/
theorem Table.rising_eq_false_iff : c.rising t i = false ↔ t < sint c.thr[i] := by
  simp [Table.rising]

/-- When a band is not falling (R69). -/
theorem Table.falling_eq_false_iff : c.falling t i = false ↔ t < sint c.hys[i] := by
  simp [Table.falling]

/-- From its threshold on a band is set (R72). -/
theorem Table.newMask_bit_of_thr_le (old : Mask n) (ht : sint c.thr[i] ≤ t) :
    (c.newMask t old)[i] = true := by
  rw [Table.newMask_bit, Table.rising_iff.mpr ht, Bool.true_or]

/-- Between its two thresholds a band holds its bit (R72). -/
theorem Table.newMask_bit_of_hys_le_of_lt_thr (old : Mask n) (hlow : sint c.hys[i] ≤ t)
    (hhigh : t < sint c.thr[i]) : (c.newMask t old)[i] = old[i] := by
  rw [Table.newMask_bit, Table.rising_eq_false_iff.mpr hhigh, Table.falling_iff.mpr hlow, Bool.false_or,
    Bool.true_and]

/-- Below both its thresholds a band is cleared (R72). -/
theorem Table.newMask_bit_of_lt_hys_of_lt_thr (old : Mask n) (hlow : t < sint c.hys[i])
    (hhigh : t < sint c.thr[i]) : (c.newMask t old)[i] = false := by
  rw [Table.newMask_bit, Table.rising_eq_false_iff.mpr hhigh, Table.falling_eq_false_iff.mpr hlow,
    Bool.false_or, Bool.false_and]

/-- In a valid table a band below its hysteresis threshold is cleared (R72). -/
theorem Table.Valid.newMask_bit_of_lt_hys (h : c.Valid) (old : Mask n) (ht : t < sint c.hys[i]) :
    (c.newMask t old)[i] = false :=
  Table.newMask_bit_of_lt_hys_of_lt_thr old ht (ht.trans_le (h.hysLe i))

/-- A band without a window is a plain comparator (R72). -/
theorem Table.newMask_bit_of_hys_eq_thr (old : Mask n) (h : c.hys[i] = c.thr[i]) :
    (c.newMask t old)[i] = decide (t ≥ sint c.thr[i]) := by
  rcases Int.lt_or_le t (sint c.thr[i]) with ht | ht
  · rw [Table.newMask_bit_of_lt_hys_of_lt_thr old (h ▸ ht) ht, decide_eq_false (Int.not_le.mpr ht)]
  · rw [Table.newMask_bit_of_thr_le old ht, decide_eq_true ht]

end Regions

section Decoders

variable {m m' : Mask n}

/-- The count of a mask is the size of its set of bits. -/
theorem popcount_eq_card (m : Mask n) :
    popcount m = (Finset.univ.filter fun i : Fin n => m[i] = true).card := by
  rw [← List.toFinset_finRange, (List.nodup_finRange n).card_eq_countP]
  simp [popcount]

/-- A mask strictly contained in another has fewer bits. -/
theorem popcount_lt_of_maskLe_of_ne (h : MaskLe m m') (hne : m ≠ m') : popcount m < popcount m' := by
  rw [popcount_eq_card, popcount_eq_card]
  refine Finset.card_lt_card (Finset.ssubset_iff_subset_ne.mpr ⟨?_, fun heq => hne (mask_ext ?_)⟩)
  · exact Finset.monotone_filter_right _ fun i _ => h i
  · intro i
    rw [Bool.eq_iff_iff]
    simpa using Finset.ext_iff.mp heq i

/-- Which bands `cto` counts: those with no clear bit at or below them (R79). -/
theorem lt_cto_iff (m : Mask n) (i : Fin n) : i.val < cto m ↔ ∀ j ≤ i, m[j] = true := by
  rw [cto, List.takeWhile_eq_take_findIdx_not, List.length_take_of_le List.findIdx_le_length,
    List.lt_findIdx_iff]
  constructor
  · rintro ⟨_, h⟩ j hj
    simpa using h j.val hj
  · intro h
    exact ⟨by simp, fun j hj => by simpa using h ⟨j, hj.trans_lt i.isLt⟩ hj⟩

/-- `cto` is the largest prefix mask inside a mask (R79). -/
theorem prefixMask_maskLe_iff {k : Nat} (hk : k ≤ n) : MaskLe (prefixMask n k) m ↔ k ≤ cto m := by
  constructor
  · intro h
    by_contra hlt
    have hin : cto m < n := by omega
    refine Nat.lt_irrefl _ ((lt_cto_iff m ⟨cto m, hin⟩).mpr fun j hj => h j ?_)
    have hjk : j.val < k := (Fin.le_def.mp hj).trans_lt (not_le.mp hlt)
    simpa using hjk
  · intro h i hi
    have hik : i.val < k := by simpa using hi
    exact (lt_cto_iff m i).mp (hik.trans_le h) i le_rfl

/-- The scan of `hsb1` from band `a` on: it stays below `k` exactly when every set bit does. -/
theorem foldl_hsb1_le_iff (m : Mask n) (k : Nat) {l : List (Fin n)} (hl : l.Pairwise (· < ·)) {a : Nat}
    (ha : ∀ i ∈ l, a ≤ i.val) :
    l.foldl (fun acc i => if m[i] then i.val + 1 else acc) a ≤ k ↔
      a ≤ k ∧ ∀ i ∈ l, m[i] = true → i.val < k := by
  induction l generalizing a with
  | nil => simp
  | cons i l ih =>
    obtain ⟨hil, hl⟩ := List.pairwise_cons.mp hl
    obtain ⟨hai, hal⟩ := List.forall_mem_cons.mp ha
    rw [List.foldl_cons, List.forall_mem_cons]
    cases hbit : m[i]
    · rw [if_neg Bool.false_ne_true, ih hl hal]
      simp
    · rw [if_pos rfl, ih hl fun j hj => hil j hj]
      constructor
      · rintro ⟨hik, hrest⟩
        exact ⟨by omega, fun _ => hik, hrest⟩
      · rintro ⟨-, hik, hrest⟩
        exact ⟨hik rfl, hrest⟩

/-- `hsb1` is the smallest prefix mask around a mask (R79). -/
theorem maskLe_prefixMask_iff {k : Nat} : MaskLe m (prefixMask n k) ↔ hsb1 m ≤ k := by
  rw [hsb1, foldl_hsb1_le_iff m k (List.sortedLT_finRange n).pairwise fun i _ => Nat.zero_le _]
  simp [MaskLe]

/-- `cto` on a prefix mask (R97). -/
theorem cto_prefixMask {k : Nat} (hk : k ≤ n) : cto (prefixMask n k) = k := by
  refine Nat.le_antisymm ?_ ((prefixMask_maskLe_iff hk).mp fun _ hi => hi)
  have hinside := (prefixMask_maskLe_iff (m := prefixMask n k) (cto_le _)).mpr le_rfl
  simpa [popcount_prefixMask, hk, cto_le] using popcount_mono hinside

/-- `hsb1` on a prefix mask (R97). -/
theorem hsb1_prefixMask {k : Nat} (hk : k ≤ n) : hsb1 (prefixMask n k) = k := by
  refine Nat.le_antisymm (maskLe_prefixMask_iff.mp fun _ hi => hi) ?_
  have haround := maskLe_prefixMask_iff (m := prefixMask n k).mpr le_rfl
  simpa [popcount_prefixMask, hk, hsb1_le] using popcount_mono haround

/-- Every decoder answers the length of a prefix mask (R97). -/
theorem Decoder.count_prefixMask (d : Decoder) {k : Nat} (hk : k ≤ n) :
    Decoder.count d (prefixMask n k) = k := by
  cases d with
  | popcount => exact popcount_prefixMask hk
  | hsb1 => exact hsb1_prefixMask hk
  | cto => exact cto_prefixMask hk
  | listed gapTiers =>
    rw [Decoder.count, if_pos (isPrefix_prefixMask k), popcount_prefixMask hk]

/-- On a gap mask `cto` misses a set bit (R79, R97). -/
theorem cto_lt_popcount (h : ¬ IsPrefix m) : cto m < popcount m := by
  have hinside : MaskLe (prefixMask n (cto m)) m := (prefixMask_maskLe_iff (cto_le m)).mpr le_rfl
  calc cto m = popcount (prefixMask n (cto m)) := (popcount_prefixMask (cto_le m)).symm
    _ < popcount m := popcount_lt_of_maskLe_of_ne hinside fun e => h (e ▸ isPrefix_prefixMask _)

/-- On a gap mask `hsb1` counts a clear bit (R79, R97). -/
theorem popcount_lt_hsb1 (h : ¬ IsPrefix m) : popcount m < hsb1 m := by
  have haround : MaskLe m (prefixMask n (hsb1 m)) := maskLe_prefixMask_iff.mpr le_rfl
  calc popcount m < popcount (prefixMask n (hsb1 m)) :=
        popcount_lt_of_maskLe_of_ne haround fun e => h (e ▸ isPrefix_prefixMask _)
    _ = hsb1 m := popcount_prefixMask (hsb1_le m)

/-- The decoder that lists the graph of `g` on the masks of `n` bands (U1; log entry 5). -/
def Decoder.ofFunction (g : Mask n → Nat) : Decoder :=
  .listed ((List.range (2 ^ n)).map fun v => (v, g (BitVec.ofNat n v)))

/-- A function with tiers in `0..N` that agrees with the count on prefix masks is the decoder that lists
it (U1; log entry 5). -/
theorem Decoder.count_ofFunction {g : Mask n → Nat} (hprefix : ∀ k, k ≤ n → g (prefixMask n k) = k)
    (hle : ∀ m, g m ≤ n) (m : Mask n) : Decoder.count (Decoder.ofFunction g) m = g m := by
  rw [Decoder.ofFunction, Decoder.count]
  split_ifs with h
  · conv_rhs => rw [h.eq_prefixMask, hprefix _ (popcount_le m)]
  · have hlookup := List.lookup_graph (fun v => g (BitVec.ofNat n v)) (List.mem_range.mpr m.isLt)
    rw [hlookup, Option.getD_some, BitVec.ofNat_toNat, BitVec.setWidth_eq, Nat.min_eq_left (hle m)]

end Decoders

end Sys2Proof.Machine
end

section
/-! PROOFS. The statements of 41_eval.md. -/

namespace Sys2Proof.Machine

/-- Settles O25: the new mask and the result are those of EVAL in mode CONFIGURED, and under R16 the duty
field loses nothing of the product. -/
theorem evalInFull : Obligations.EvalInFull := by
  refine ⟨fun n arg b hv => exec_eval_unconfigured hv arg, fun n arg b hv hvalid hdecoder => ?_⟩
  let m := b.table.newMask (wholeDegrees arg) b.mask
  let tier := Decoder.tier b.params.decoder m
  have hcount : tier.val = popcount m := by simp only [tier, Decoder.tier, hdecoder, Decoder.count]
  exact ⟨m, b.table.evaluation tier, exec_eval_configured hv arg, b.table.newMask_bit _ _,
    (b.table.evaluation_tier tier).trans hcount, fun _ => b.table.evaluation_speed_of_tier,
    hvalid.evaluation_duty tier⟩

/-- Settles O27, region by region, and the truth table row by row. -/
theorem latchHasThreeRegions : Obligations.LatchHasThreeRegions := by
  refine ⟨fun n arg b b' i hv hvalid hexec => ?_, fun n c t old i => ?_⟩
  · rw [exec_eval_mask hv hexec]
    exact ⟨hvalid.newMask_bit_of_lt_hys b.mask, Table.newMask_bit_of_hys_le_of_lt_thr b.mask,
      Table.newMask_bit_of_thr_le b.mask, Table.newMask_bit_of_hys_eq_thr b.mask⟩
  · rw [Table.newMask_bit]
    split <;> simp [*]

/-- Settles O28: the latch rule of band `i` reads nothing else. -/
theorem bandsAreIndependent : Obligations.BandsAreIndependent := by
  intro n arg b₁ b₂ b₁' b₂' i hv₁ hv₂ hthr hhys hbit hexec₁ hexec₂
  rw [exec_eval_mask hv₁ hexec₁, exec_eval_mask hv₂ hexec₂, Table.newMask_bit, Table.newMask_bit,
    Table.rising, Table.rising, Table.falling, Table.falling, hthr, hhys, hbit]

/-- Settles O41: `cto` is the largest prefix mask inside a mask, `hsb1` the smallest around it, and the
count lies between them, strictly on a gap mask. -/
theorem decodersAgreeOnPrefixMasks : Obligations.DecodersAgreeOnPrefixMasks := by
  refine ⟨fun n k hk => ?_, fun n g hprefix hle => ?_, fun n m h => ?_, by decide, by decide, by decide⟩
  · exact ⟨popcount_prefixMask hk, hsb1_prefixMask hk, cto_prefixMask hk,
      fun d => Decoder.count_prefixMask d hk⟩
  · exact ⟨Decoder.ofFunction g, Decoder.count_ofFunction hprefix hle⟩
  · exact ⟨cto_lt_popcount h, popcount_lt_hsb1 h⟩

/-- Settles O24: the two modes of EVAL. -/
theorem evalNeedsAConfiguration : Obligations.EvalNeedsAConfiguration :=
  ⟨rfl, fun _ arg _ hv => exec_eval_unconfigured hv arg,
    fun _ arg _ hv => ⟨_, _, exec_eval_configured hv arg, Block.respondEval_response _ _⟩⟩

end Sys2Proof.Machine
end

section
/-! SUPPORT. The words of one command, what the system family does to the architectural state, and a run that
begins with a presented command. -/

namespace Sys2Proof.Machine

open Sys2Proof.Laws.Encoding (decode_eq_iff)

/-- The words of a command are those with its opcode: any `arg` field belongs to one of them (R39). -/
theorem exists_decode_eq_iff (w : CmdWord) (command : BitVec 32 → Instr) (o : BitVec 2)
    (ho : ∀ a, (command a).opcode = o) (harg : ∀ a, (command a).argField = a) :
    (∃ a, decode w = command a) ↔ CmdWord.op w = o := by
  simp [decode_eq_iff, ho, harg]

variable {n : Nat} {b : Block n}

/-- Neither a presented bus nor the response OK is part of the architectural state (R20, R24). -/
theorem Block.archEq_withBus_respondOk (b : Block n) (bus : Bus n) :
    b.ArchEq ({ b with bus := bus } : Block n).respondOk :=
  ⟨rfl, rfl, rfl, fun _ => rfl⟩

variable {w : CmdWord} {bus : Bus n} {ms : List (HostMove n)} {rs : List Response} {u : State}

/-- A run whose first move presents the command `i` executes it over its own bus and goes on with the
rest. -/
theorem runMoves_command {i : Instr} {b' : Block n} (hw : decode w = i)
    (hexec : exec i (.of { b with bus := bus }) = .next (.of b'))
    (hrest : runMoves ms b' = .next (rs, u)) :
    runMoves (.command w bus :: ms) b = .next (b'.response.toList ++ rs, u) := by
  subst hw
  exact runMoves_cons (b' := { b' with host := ms }) (exec_otherQueue hexec ms) hrest

/-- A run that begins with a NOP answers OK and goes on from the same architectural state (R85). -/
theorem runMoves_nop {a : BitVec 32} (hw : decode w = .nop a)
    (hrest : runMoves ms ({ b with bus := bus } : Block n).respondOk = .next (rs, u)) :
    runMoves (.command w bus :: ms) b = .next ({ status := .ok, result := none } :: rs, u) :=
  runMoves_command hw (exec_nop a _) hrest

end Sys2Proof.Machine
end

section
/-! PROOFS. The statements of 42_init_nop.md. -/

namespace Sys2Proof.Machine

open Sys2Proof.Laws.Encoding (decode_encode)

/-- Settles O14: a NOP leaves an instance that agrees with `b` on the architectural state, and such instances
run alike and are observed alike. -/
theorem nopIsTransparent : Obligations.NopIsTransparent := by
  intro n a bus ms b t rs hrun
  obtain ⟨c, rfl, -⟩ := runMoves_frame hrun
  obtain ⟨c', hrest, hagree⟩ := (b.archEq_withBus_respondOk bus).runMoves hrun
  exact ⟨.of c', runMoves_nop (decode_encode (.nop a)) hrest, (hagree.observation_eq rs).symm⟩

/-- Settles O11: the opcode alone selects the command, and its meaning is the response. -/
theorem nopRespondsAndChangesNothing : Obligations.NopRespondsAndChangesNothing :=
  ⟨fun w => (exists_decode_eq_iff w .nop 0b00#2 (fun _ => rfl) fun _ => rfl).symm, fun _ => exec_nop⟩

/-- Settles O12: the opcode alone selects the command, its meaning is the write and the response, and no
step writes a parameter (`step_frame`). -/
theorem initRestartsTheLatch : Obligations.InitRestartsTheLatch := by
  refine ⟨fun w => (exists_decode_eq_iff w .init 0b10#2 (fun _ => rfl) fun _ => rfl).symm,
    fun _ => exec_init, fun _ => rfl, fun n b t hstep => ?_⟩
  obtain ⟨b', rfl, hparams, -⟩ := step_frame hstep
  exact ⟨b', rfl, hparams⟩

/-- Settles O13, command by command: two NOPs, and INIT, NOP and the EVAL that a reset instance refuses. -/
theorem systemFamilyExamples : Obligations.SystemFamilyExamples := by
  have hnop : decode 0x000000000#34 = .nop 0 := by decide
  have hinit : decode 0x200000000#34 = .init 0 := by decide
  have heval : decode 0x30000C350#34 = .eval 50000 := by decide
  refine ⟨fun n b bus => ?_, fun n p bus => ?_⟩
  · exact ⟨_, runMoves_nop hnop (runMoves_nop hnop (runMoves_nil _)), rfl, rfl, rfl, rfl⟩
  · exact ⟨_, runMoves_command hinit (exec_init 0 _) (runMoves_nop hnop
      (runMoves_command heval (exec_eval_unconfigured rfl 50000) (runMoves_nil _))), rfl, rfl⟩

end Sys2Proof.Machine
end

section
/-! SUPPORT. The truncation to whole degrees as linear arithmetic, and the operands that reach a given whole
degree. -/

namespace Sys2Proof.Machine

/-- The truncation is non-decreasing (R87). -/
theorem tdiv_mono {T1 T2 : Int} (h : T1 ≤ T2) : tdiv T1 1000 ≤ tdiv T2 1000 := by
  have h1 := tdiv_bounds T1
  have h2 := tdiv_bounds T2
  omega

/-- The truncation is odd (R87). -/
theorem tdiv_neg (T : Int) : tdiv (-T) 1000 = -tdiv T 1000 := by
  rw [tdiv_eq _ (by decide), tdiv_eq _ (by decide), Int.neg_tdiv]

/-- A positive whole degree is reached at its thousandfold (R87). -/
theorem le_tdiv_iff_of_pos {T c : Int} (hc : 1 ≤ c) : c ≤ tdiv T 1000 ↔ 1000 * c ≤ T := by
  have h := tdiv_bounds T
  omega

/-- A whole degree that is not positive is reached 999 millidegrees earlier (R87). -/
theorem le_tdiv_iff_of_nonpos {T c : Int} (hc : c ≤ 0) : c ≤ tdiv T 1000 ↔ 1000 * c - 999 ≤ T := by
  have h := tdiv_bounds T
  omega

/-- Truncation moves the temperature up only below zero, and there off the multiples (R87). -/
theorem tdiv_le_iff {T : Int} : 1000 * tdiv T 1000 ≤ T ↔ 0 ≤ T ∨ 1000 ∣ T := by
  have h := tdiv_bounds T
  omega

/-- Truncation brings a temperature other than zero nearer to zero (R87). -/
theorem abs_tdiv_lt {T : Int} (hT : T ≠ 0) : |tdiv T 1000| < |T| := by
  obtain ⟨hsign, hlow, hhigh⟩ | ⟨hsign, hlow, hhigh⟩ := tdiv_bounds T
  · rw [abs_of_nonneg hsign, abs_of_nonneg (by omega)]
    omega
  · rw [abs_of_neg hsign, abs_of_nonpos (by omega)]
    omega

/-- The whole degrees an operand can reach (R87). -/
theorem wholeDegrees_range (arg : Word) : -2147483 ≤ wholeDegrees arg ∧ wholeDegrees arg ≤ 2147483 := by
  have hrange := sint_range arg
  have hbounds := tdiv_bounds (sint arg)
  rw [wholeDegrees]
  omega

/-- A higher temperature has no lower whole degrees. -/
theorem wholeDegrees_mono {a₁ a₂ : Word} (h : sint a₁ ≤ sint a₂) : wholeDegrees a₁ ≤ wholeDegrees a₂ :=
  tdiv_mono h

/-- The operand EVALC assembles for a whole degree evaluates at it (R48). -/
theorem wholeDegrees_ofInt {d : Int} (hlow : -2147483 ≤ d) (hhigh : d ≤ 2147483) :
    wholeDegrees (BitVec.ofInt 32 (d * 1000)) = d := by
  obtain ⟨-, -, arg, harg, -, ht⟩ := evalcEvaluatesAtWholeDegrees d hlow hhigh
  cases harg
  exact ht

/-- The whole degrees of the lowest operand (R87). -/
theorem wholeDegrees_of_least {arg : Word} (h : sint arg = -2147483648) :
    wholeDegrees arg = -2147483 := by
  rw [wholeDegrees, h]; rfl

/-- The whole degrees of the highest operand (R87). -/
theorem wholeDegrees_of_greatest {arg : Word} (h : sint arg = 2147483647) :
    wholeDegrees arg = 2147483 := by
  rw [wholeDegrees, h]; rfl

end Sys2Proof.Machine
end

section
/-! SUPPORT. The latch rule on whole masks: its order, its fixpoint, its two ends, and its closed
form on prefix masks. -/

namespace Sys2Proof.Machine

variable {n : Nat}

/-- The mask without a set bit has count 0. -/
theorem popcount_eq_zero_iff {m : Mask n} : popcount m = 0 ↔ m = 0 := by
  rw [popcount, List.countP_eq_zero]
  exact ⟨fun h => mask_ext fun i => by simpa using h i (List.mem_finRange i), fun h => by simp [h]⟩

/-- The mask without a clear bit has count `n`. -/
theorem popcount_eq_bands_iff {m : Mask n} : popcount m = n ↔ m = BitVec.allOnes n := by
  have hcount : popcount m = n ↔ ∀ i ∈ List.finRange n, m[i] = true := by
    simpa [popcount] using List.countP_eq_length (p := fun i : Fin n => m[i]) (l := List.finRange n)
  rw [hcount]
  exact ⟨fun h => mask_ext fun i => by simpa using h i (List.mem_finRange i), fun h => by simp [h]⟩

/-- The prefix mask of length 0 is the empty mask. -/
@[simp] theorem prefixMask_zero : prefixMask n 0 = 0 := mask_ext fun i => by simp

/-- The prefix mask of all bands. -/
@[simp] theorem prefixMask_bands : prefixMask n n = BitVec.allOnes n := mask_ext fun i => by simp

section Latch

variable {c : Table n} {t t' : Int} {m old old' : Mask n} {i : Fin n}

/-- What leaves a band set (R70). -/
theorem Table.newMask_bit_iff :
    (c.newMask t old)[i] = true ↔ c.rising t i = true ∨ (c.falling t i = true ∧ old[i] = true) := by
  rw [Table.newMask_bit, Bool.or_eq_true, Bool.and_eq_true]

/-- A rising band is rising at every higher temperature. -/
theorem Table.rising_mono (ht : t ≤ t') (h : c.rising t i = true) : c.rising t' i = true :=
  Table.rising_iff.mpr ((Table.rising_iff.mp h).trans ht)

/-- A falling band is falling at every higher temperature. -/
theorem Table.falling_mono (ht : t ≤ t') (h : c.falling t i = true) : c.falling t' i = true :=
  Table.falling_iff.mpr ((Table.falling_iff.mp h).trans ht)

/-- The latch rule is monotone in the temperature and in the old mask (R98). -/
theorem Table.newMask_mono (ht : t ≤ t') (hold : MaskLe old old') :
    MaskLe (c.newMask t old) (c.newMask t' old') := by
  intro i hi
  rw [Table.newMask_bit_iff] at hi ⊢
  exact hi.imp (Table.rising_mono ht) fun ⟨hf, hb⟩ => ⟨Table.falling_mono ht hf, hold i hb⟩

/-- The latch rule reaches its fixpoint after one application (R95). -/
@[simp] theorem Table.newMask_newMask : c.newMask t (c.newMask t old) = c.newMask t old := by
  apply mask_ext
  intro i
  simp only [Table.newMask_bit]
  cases c.rising t i <;> cases c.falling t i <;> simp

/-- Which bands of a valid table are rising: those below `a(t)` (R103). -/
theorem Table.Valid.rising_iff_lt (h : c.Valid) : c.rising t i = true ↔ i.val < c.countRising t :=
  iff_lt_countP (c.rising t) (fun i j hij hj => Table.rising_iff.mpr
    ((h.thr_le i j hij.le).trans (Table.rising_iff.mp hj))) i

/-- Which bands are falling under `HysMono`: those below `b(t)` (R103). -/
theorem Table.HysMono.falling_iff_lt (h : c.HysMono) :
    c.falling t i = true ↔ i.val < c.countFalling t :=
  iff_lt_countP (c.falling t) (fun i j hij hj => Table.falling_iff.mpr
    ((h.hys_le i j hij.le).trans (Table.falling_iff.mp hj))) i

theorem Table.countRising_le (c : Table n) (t : Int) : c.countRising t ≤ n :=
  List.countP_le_length.trans_eq List.length_finRange

/-- A higher temperature reaches no fewer thresholds (R99). -/
theorem Table.countRising_mono (ht : t ≤ t') : c.countRising t ≤ c.countRising t' :=
  List.countP_mono_left fun _ _ => Table.rising_mono ht

/-- A valid table has no more rising bands than falling ones (R103). -/
theorem Table.Valid.countRising_le_countFalling (h : c.Valid) : c.countRising t ≤ c.countFalling t :=
  List.countP_mono_left fun _ _ => h.falling_of_rising

/-- A mask that shows the rising bands of a valid table is the prefix mask of their number (R102). -/
theorem Table.Valid.eq_prefixMask_countRising (h : c.Valid) (hm : ∀ i : Fin n, m[i] = c.rising t i) :
    m = prefixMask n (c.countRising t) := by
  apply mask_ext
  intro i
  rw [hm, Bool.eq_iff_iff, h.rising_iff_lt, Fin.getElem_fin, prefixMask_getElem, decide_eq_true_iff]

/-- From the empty mask the rising bands are set (R102). -/
theorem Table.newMask_zero_bit : (c.newMask t 0)[i] = c.rising t i := by
  rw [Table.newMask_bit]
  simp

/-- The closed form from the empty mask (R102). -/
theorem Table.Valid.newMask_zero (h : c.Valid) : c.newMask t 0 = prefixMask n (c.countRising t) :=
  h.eq_prefixMask_countRising fun _ => Table.newMask_zero_bit

/-- The closed form of a table in which no band has a window (R104). -/
theorem Table.Valid.newMask_of_hys_eq_thr (h : c.Valid) (hwindow : ∀ i : Fin n, c.hys[i] = c.thr[i]) :
    c.newMask t old = prefixMask n (c.countRising t) :=
  h.eq_prefixMask_countRising fun i => Table.newMask_bit_of_hys_eq_thr old (hwindow i)

/-- The closed form under nesting: the length of the prefix is clamped between `a(t)` and `b(t)` (R103). -/
theorem Table.Valid.newMask_prefixMask (h : c.Valid) (hmono : c.HysMono) (k : Nat) :
    c.newMask t (prefixMask n k) =
      prefixMask n (max (c.countRising t) (min k (c.countFalling t))) := by
  apply mask_ext
  intro i
  rw [Bool.eq_iff_iff, Table.newMask_bit_iff, h.rising_iff_lt, hmono.falling_iff_lt]
  simp only [Fin.getElem_fin, prefixMask_getElem, decide_eq_true_iff]
  omega

/-- The latch rule keeps prefix masks under `HysMono` (R96). -/
theorem Table.Valid.newMask_isPrefix (h : c.Valid) (hmono : c.HysMono) (hold : IsPrefix old) :
    IsPrefix (c.newMask t old) := by
  rw [hold.eq_prefixMask, h.newMask_prefixMask hmono]
  exact isPrefix_prefixMask _

/-- In the hold region of the highest latched band `k` the mask stays, if no lower band has a higher
hysteresis threshold: the bands above `k` are not rising, those up to `k` are falling (R100). -/
theorem Table.Valid.newMask_hold (h : c.Valid) {k : Fin n}
    (hlower : ∀ j : Fin n, j < k → sint c.hys[j] ≤ sint c.hys[k]) (hlow : sint c.hys[k] ≤ t)
    (hhigh : t < sint c.thr[k]) :
    c.newMask t (prefixMask n (k.val + 1)) = prefixMask n (k.val + 1) := by
  apply mask_ext
  intro i
  have hbit : (prefixMask n (k.val + 1))[i] = decide (i.val < k.val + 1) := prefixMask_getElem ..
  rw [Table.newMask_bit, hbit]
  rcases lt_trichotomy i k with hik | rfl | hki
  · have hf : c.falling t i = true := Table.falling_iff.mpr ((hlower i hik).trans hlow)
    simp [hf, show i.val < k.val + 1 by omega]
  · simp [Table.falling_iff.mpr hlow]
  · have hr : c.rising t i = false :=
      Table.rising_eq_false_iff.mpr (hhigh.trans_le (h.thr_le k i hki.le))
    simp [hr, show ¬ i.val < k.val + 1 by omega]

/-- Below every hysteresis threshold of a valid table no band stays set (R101). -/
theorem Table.Valid.newMask_eq_zero (h : c.Valid) (ht : ∀ i : Fin n, t < sint c.hys[i]) :
    c.newMask t old = 0 :=
  mask_ext fun i => by rw [h.newMask_bit_of_lt_hys old (ht i)]; simp

/-- From the highest threshold of a valid table on every band is set (R101). -/
theorem Table.Valid.newMask_eq_allOnes (h : c.Valid) {last : Fin n} (hlast : last.val + 1 = n)
    (ht : sint c.thr[last] ≤ t) : c.newMask t old = BitVec.allOnes n := by
  refine mask_ext fun i => ?_
  have hthr : sint c.thr[i] ≤ sint c.thr[last] := h.thr_le i last (by omega)
  rw [Table.newMask_bit_of_thr_le old (hthr.trans ht)]
  simp

/-- Only below every hysteresis threshold are all latched bands cleared (R101). -/
theorem Table.lt_hys_of_newMask_allOnes_eq_zero (h : c.newMask t (BitVec.allOnes n) = 0) (i : Fin n) :
    t < sint c.hys[i] := by
  by_contra hge
  have hset : (c.newMask t (BitVec.allOnes n))[i] = true :=
    Table.newMask_bit_iff.mpr (.inr ⟨Table.falling_iff.mpr (not_lt.mp hge), by simp⟩)
  simp [h] at hset

/-- Only from a threshold on is its band set from the empty mask (R101). -/
theorem Table.thr_le_of_newMask_zero_eq_allOnes (h : c.newMask t 0 = BitVec.allOnes n) (i : Fin n) :
    sint c.thr[i] ≤ t := by
  rw [← Table.rising_iff, ← Table.newMask_zero_bit, h]
  simp

end Latch

/-- Under `SpdMono` a higher tier has no lower duty (R99). -/
theorem Table.SpdMono.duty_mono {c : Table n} (h : c.SpdMono) {k k' : Fin (n + 1)} (hk : k ≤ k') :
    c.duty k ≤ c.duty k' := by
  have hspeed : (uint c.spd[k] : Int) ≤ uint c.spd[k'] :=
    le_of_adjacent (fun k => (uint c.spd[k] : Int)) (fun i j hij => Int.ofNat_le.mpr (h i j hij)) k k' hk
  exact Nat.mul_le_mul_right _ (Int.ofNat_le.mp hspeed)

/-- Full speed pays the period without its remainder (R93). -/
theorem Table.Valid.full_speed {c : Table n} (h : c.Valid) :
    100 * c.dpp.toNat = c.period.toNat - c.period.toNat % 100 := by
  have hdpp : c.dpp.toNat = c.period.toNat / 100 := h.dppEq
  omega

end Sys2Proof.Machine
end

section
/-! SUPPORT. What an EVAL that completes has done, what a command can do to `MASK`, when a command loads a
table, and a run that begins with a presented command. -/

namespace Sys2Proof.Machine

open Sys2Proof.Laws.Encoding (decode_encode)

variable {n : Nat} {b b' : Block n}

/-- An EVAL that answers a result ran in mode CONFIGURED, left the new mask, and answered the decoder's tier
of that mask (R71, R73 to R76). -/
theorem exec_eval_completed {arg : BitVec 32} {e : Evaluation}
    (hexec : exec (.eval arg) (.of b) = .next (.of b'))
    (hr : b'.response = some { status := .ok, result := some e }) :
    b.cfgValid = true ∧ b'.mask = b.table.newMask (wholeDegrees arg) b.mask ∧
      e = b.table.evaluation (Decoder.tier b.params.decoder b'.mask) := by
  cases hv : b.cfgValid
  · rw [exec_eval_unconfigured hv] at hexec
    cases hexec
    cases hr
  · rw [exec_eval_configured hv] at hexec
    cases hexec
    cases hr
    exact ⟨rfl, rfl, rfl⟩

/-- EVAL in mode CONFIGURED where the latch rule leaves the mask as it is. -/
theorem exec_eval_fixpoint {arg : BitVec 32} (hv : b.cfgValid = true)
    (hfix : b.table.newMask (wholeDegrees arg) b.mask = b.mask) :
    exec (.eval arg) (.of b) =
      .next (.of (b.respondEval (b.table.evaluation (Decoder.tier b.params.decoder b.mask)))) := by
  rw [exec_eval_configured hv, hfix]
  rfl

/-- The tier of an EVAL that leaves a prefix mask is its length, with every decoder (R97). -/
theorem Table.evaluation_tier_prefixMask (c : Table n) (d : Decoder) {k : Nat} (hk : k ≤ n) :
    (c.evaluation (Decoder.tier d (prefixMask n k))).tier.toNat = k :=
  (c.evaluation_tier _).trans (Decoder.count_prefixMask d hk)

/-- Everything a command can do to `MASK`: leave it (R85, R62, R68), restart the latch (R83), or apply the
latch rule (R71). -/
theorem exec_mask_cases {i : Instr} (h : exec i (.of b) = .next (.of b')) :
    b'.mask = b.mask ∨ b'.mask = b.params.initMask ∨
      (b.cfgValid = true ∧ ∃ t, b'.mask = b.table.newMask t b.mask) := by
  cases i with
  | nop a => rw [exec_nop] at h; cases h; exact .inl rfl
  | init a => rw [exec_init] at h; cases h; exact .inr (.inl rfl)
  | ldcfg a =>
    rw [exec_ldcfg] at h; cases h
    obtain ⟨-, e⟩ | ⟨-, _, -, e⟩ | ⟨-, -, e⟩ := b.loadConfig_cases <;> simp [e]
  | eval a =>
    cases hv : b.cfgValid
    · rw [exec_eval_unconfigured hv] at h; cases h; exact .inl rfl
    · exact .inr (.inr ⟨rfl, wholeDegrees a, exec_eval_mask hv h⟩)

/-- Every command keeps the nesting invariant under its premises (R96). -/
theorem exec_nested {i : Instr} (hinv : (State.of b).TableInv) (hmono : (State.of b).HysMonoIfLoaded)
    (hnested : (State.of b).Nested) (h : exec i (.of b) = .next (.of b')) : (State.of b').Nested := by
  obtain ⟨hinit, hmask⟩ := hnested
  obtain ⟨c, hc, hparams, -⟩ := exec_frame h
  obtain rfl := State.of_inj.mp hc
  refine ⟨hparams ▸ hinit, ?_⟩
  obtain e | e | ⟨hv, t, e⟩ := exec_mask_cases h
  · exact e ▸ hmask
  · exact e ▸ hinit
  · exact e ▸ (hinv hv).newMask_isPrefix (hmono hv) hmask

/-- Only LDCFG leaves mode UNCONFIGURED, on a bus that passes the checks, and it commits the table of that
bus (R19, R64). -/
theorem exec_loads {i : Instr} (hv : b.cfgValid = false) (hv' : b'.cfgValid = true)
    (h : exec i (.of b) = .next (.of b')) :
    ∃ a, i = .ldcfg a ∧ b.bus.configError b.params.cfgDecode = none ∧
      b'.table = b.bus.toTable b.params.cfgDecode := by
  obtain ⟨hkeep, -⟩ | ⟨-, hpass, -, htable⟩ := exec_table_cases h
  · simp [hkeep, hv] at hv'
  · cases i with
    | nop a => rw [exec_nop] at h; cases h; simp [hv] at hv'
    | init a => rw [exec_init] at h; cases h; simp [hv] at hv'
    | ldcfg a => exact ⟨a, rfl, hpass, htable⟩
    | eval a => rw [exec_eval_unconfigured hv] at h; cases h; simp [hv] at hv'

variable {m : HostMove n} {ms : List (HostMove n)}

/-- Each configuration that a run of `ms` from `b` loads, by an LDCFG it meets with `CFG_VALID = 0` whose
operands pass the checks, has non-decreasing hysteresis thresholds (R96). -/
def Block.LoadsHysMono (b : Block n) (ms : List (HostMove n)) : Prop :=
  ∀ (before rest : List (HostMove n)) (w : CmdWord) (bus : Bus n) (a : BitVec 32) (s : Block n)
    (rs : List Response), ms = before ++ .command w bus :: rest →
    runMoves before b = .next (rs, .of s) → s.cfgValid = false → decode w = .ldcfg a →
    bus.configError b.params.cfgDecode = none → (bus.toTable b.params.cfgDecode).HysMono

/-- What a run loads after its first step is among what it loads. -/
theorem Block.LoadsHysMono.tail (hloads : b.LoadsHysMono (m :: ms))
    (h : step (.of { b with host := m :: ms }) = .next (.of b')) : b'.LoadsHysMono ms := by
  obtain ⟨c, hc, hparams, -⟩ := step_frame h
  obtain rfl := State.of_inj.mp hc
  have hkeep : b'.params = b.params := hparams
  intro before rest w bus a s rs hms hbefore
  rw [hkeep]
  exact hloads (m :: before) rest w bus a s _ (hms ▸ rfl)
    (runMoves_cons (b' := { b' with host := before }) (step_otherQueue h before) hbefore)

/-- A step keeps `HysMono` of the loaded table if the configuration it loads has it (R96). -/
theorem Block.LoadsHysMono.step (hloads : b.LoadsHysMono (m :: ms))
    (hmono : (State.of b).HysMonoIfLoaded)
    (h : step (.of { b with host := m :: ms }) = .next (.of b')) : (State.of b').HysMonoIfLoaded := by
  intro hv'
  cases m with
  | command w bus =>
    rw [step_command] at h
    cases hv : b.cfgValid
    · obtain ⟨a, hi, hpass, htable⟩ := exec_loads (b := { b with host := ms, bus := bus }) hv hv' h
      exact htable ▸ hloads [] ms w bus a _ [] rfl (runMoves_nil b) hv hi hpass
    · obtain ⟨-, htable⟩ := exec_keeps_loaded_table (b := { b with host := ms, bus := bus }) hv h
      exact htable ▸ hmono hv
  | reset => rw [step_reset] at h; cases h; cases hv'
  | breach _ => cases h

/-- A step on a command the host presents (R35). -/
theorem step_ofInstr (b : Block n) (i : Instr) (bus : Bus n) (ms : List (HostMove n)) :
    step (.of { b with host := HostMove.ofInstr i bus :: ms }) =
      exec i (.of { b with host := ms, bus := bus }) := by
  rw [HostMove.ofInstr, step_command, decode_encode]

/-- A sequence of EVALs that each leave the mask as it is leaves it, and every one answers its tier. -/
theorem runMoves_eval_fixpoint {args : List (BitVec 32)} {bus : Bus n} {rs : List Response}
    (hv : b.cfgValid = true)
    (hfix : ∀ a ∈ args, b.table.newMask (wholeDegrees a) b.mask = b.mask)
    (hrun : runMoves (args.map fun a => HostMove.ofInstr (.eval a) bus) b = .next (rs, .of b')) :
    b'.mask = b.mask ∧ rs = List.replicate args.length
      ⟨.ok, some (b.table.evaluation (Decoder.tier b.params.decoder b.mask))⟩ := by
  induction args generalizing b rs with
  | nil => rw [List.map_nil, runMoves_nil] at hrun; cases hrun; exact ⟨rfl, rfl⟩
  | cons a args ih =>
    obtain ⟨hfixa, hfix⟩ := List.forall_mem_cons.mp hfix
    obtain ⟨c, rs', hstep, hrest, rfl⟩ := runMoves_cons_cases hrun
    rw [step_ofInstr, exec_eval_fixpoint (b := { b with host := _, bus := bus }) hv hfixa] at hstep
    cases hstep
    obtain ⟨hmask, rfl⟩ := ih
      (b := ({ b with host := _, bus := bus } : Block n).respondEval _) hv hfix hrest
    exact ⟨hmask, rfl⟩

end Sys2Proof.Machine
end

section
/-! PROOFS. The statements of 43_laws.md. -/

namespace Sys2Proof.Machine

/-- Settles O37: with no command the mask stands, a command keeps the nesting (`exec_nested`), and a reset
mark puts `INIT_MASK` in its place. -/
theorem stepKeepsNesting : Obligations.StepKeepsNesting := by
  rintro ⟨n, b⟩ t hinv hmono hnested h
  obtain ⟨-, rfl⟩ | ⟨w, bus, rest, -, hexec⟩ | ⟨rest, -, rfl⟩ := step_cases h
  · exact hnested
  · obtain ⟨b', rfl, -⟩ := exec_frame hexec
    exact exec_nested (b := b.present bus rest) hinv hmono hnested hexec
  · exact ⟨hnested.1, hnested.1⟩

/-- Settles O29: each law from the bounds that fix the quotient on either side of zero. -/
theorem truncationLaws : Obligations.TruncationLaws :=
  ⟨wholeDegrees_range, rfl, rfl, fun _ _ => tdiv_mono, tdiv_neg, tdiv_bounds_nonneg, tdiv_bounds_neg,
    fun _ => tdiv_le_iff, fun _ => abs_tdiv_lt, fun _ _ => le_tdiv_iff_of_pos,
    fun _ _ => le_tdiv_iff_of_nonpos⟩

/-- Settles O30: the tier is the number of set bits, which only the two extreme masks take to its ends. -/
theorem tierRange : Obligations.TierRange := by
  intro n arg b b' e hdecoder hexec hr
  obtain ⟨-, -, rfl⟩ := exec_eval_completed hexec hr
  have htier : (b.table.evaluation (Decoder.tier b.params.decoder b'.mask)).tier.toNat =
      popcount b'.mask := by
    simp only [Table.evaluation_tier, Decoder.tier, hdecoder, Decoder.count]
  rw [htier]
  exact ⟨popcount_le _, popcount_eq_zero_iff, popcount_eq_bands_iff⟩

/-- Settles O31: an entry of at most 100 times a hundredth of the period, rounded down. -/
theorem speedAndDutyBounds : Obligations.SpeedAndDutyBounds := by
  intro n arg b b' e hvalid hexec hr
  obtain ⟨-, -, rfl⟩ := exec_eval_completed hexec hr
  have hspeed := hvalid.spdLe (Decoder.tier b.params.decoder b'.mask)
  refine ⟨hspeed, hvalid.evaluation_duty _, ?_, Nat.mul_div_le _ _, ?_⟩
  · rw [← fdiv, ← hvalid.dppEq]
    exact Nat.mul_le_mul_right _ hspeed
  · rw [hvalid.evaluation_duty]
    exact hvalid.duty_le _

/-- Settles O32: the factor is the speed, and a hundred times `DPP` is the period without its remainder. -/
theorem dutyGranularity : Obligations.DutyGranularity := by
  intro n arg b b' e hvalid hexec hr
  obtain ⟨hspeed, hduty, -⟩ := speedAndDutyBounds n arg b b' e hvalid hexec hr
  refine ⟨⟨_, hspeed, hduty⟩, fun hfull => ?_⟩
  have hperiod := hvalid.full_speed
  rw [hfull] at hduty
  omega

/-- Settles O33: both meanings read nothing else. -/
theorem commandsAreDeterministic : Obligations.CommandsAreDeterministic := by
  refine ⟨fun n arg b₁ b₂ b₁' b₂' hv₁ hv₂ hmask htable hdecoder h₁ h₂ => ?_,
    fun n a₁ a₂ b₁ b₂ b₁' b₂' hv hbus hdecode h₁ h₂ => ?_⟩
  · rw [exec_eval_configured hv₁, hmask, htable, hdecoder] at h₁
    rw [exec_eval_configured hv₂] at h₂
    cases h₁
    cases h₂
    exact ⟨rfl, rfl⟩
  · rw [exec_ldcfg] at h₁ h₂
    cases h₁
    cases h₂
    obtain ⟨hv₁, e⟩ | ⟨hv₁, st, herr, e⟩ | ⟨hv₁, hpass, e⟩ := b₁.loadConfig_cases
    · rw [e, Block.loadConfig_configured (hv ▸ hv₁)]
      exact ⟨rfl, hv, .inl ⟨rfl, rfl⟩, rfl, rfl⟩
    · rw [hbus, hdecode] at herr
      rw [e, Block.loadConfig_failing (hv ▸ hv₁) herr]
      exact ⟨rfl, hv, .inl ⟨rfl, rfl⟩, rfl, rfl⟩
    · rw [hbus, hdecode] at hpass
      rw [e, Block.loadConfig_passing (hv ▸ hv₁) hpass, hbus, hdecode]
      exact ⟨rfl, rfl, .inr rfl, rfl, rfl⟩

/-- Settles O34: a refusal leaves only its response, and the latch rule reaches its fixpoint at once. -/
theorem evalIsIdempotent : Obligations.EvalIsIdempotent := by
  rintro arg ⟨n, b⟩ t h
  cases hv : b.cfgValid
  · rw [exec_eval_unconfigured hv] at h
    cases h
    exact exec_eval_unconfigured hv arg
  · rw [exec_eval_configured hv] at h
    cases h
    exact exec_eval_fixpoint
      (b := (b.writeMask (b.table.newMask (wholeDegrees arg) b.mask)).respondEval _) hv
      Table.newMask_newMask

/-- A run from an instance that meets the premises of `stepKeepsNesting` and that loads
only tables with `HysMono` ends with a prefix mask: by induction on the stream, each step keeps both. -/
theorem runMoves_isPrefix {n : Nat} {ms : List (HostMove n)} {b b' : Block n} {rs : List Response}
    (hinv : (State.of b).TableInv) (hmono : (State.of b).HysMonoIfLoaded) (hnested : (State.of b).Nested)
    (hloads : b.LoadsHysMono ms) (hrun : runMoves ms b = .next (rs, .of b')) : IsPrefix b'.mask := by
  induction ms generalizing b rs with
  | nil => rw [runMoves_nil] at hrun; cases hrun; exact hnested.2
  | cons m ms ih =>
    obtain ⟨c, rs', hstep, hrest, -⟩ := runMoves_cons_cases hrun
    have hinv' : (State.of c).TableInv :=
      stepKeepsTheTableValid (.of { b with host := m :: ms }) _ hinv hstep
    have hnested' : (State.of c).Nested :=
      stepKeepsNesting (.of { b with host := m :: ms }) _ hinv hmono hnested hstep
    exact ih hinv' (hloads.step hmono hstep) hnested' (hloads.tail hstep) hrest

/-- Settles O38: a reset instance holds no table, and its mask is `INIT_MASK`. -/
theorem nestingHoldsOverRuns : Obligations.NestingHoldsOverRuns := by
  intro n p ms b' rs hinit hloads hrun
  have hinv : (State.of (Block.resetWith p)).TableInv := resetHasTheTableInvariant.2 n p
  exact runMoves_isPrefix hinv nofun ⟨hinit, hinit⟩ hloads hrun

/-- Settles O39: the first EVAL reaches `THR[j]`, the second holds band `j` and lies below `HYS[i]`. -/
theorem nestingNeedsHysMono : Obligations.NestingNeedsHysMono := by
  intro n b b₁ b₂ i j hv hvalid hzero hij hhys hthrMax hhysMin hexec₁ hexec₂
  have hle : b.table.hys[j].toInt ≤ b.table.thr[j].toInt := hvalid.hysLe j
  have ht₁ := wholeDegrees_ofInt (d := max b.table.thr[j].toInt (-2147483)) (by omega) (by omega)
  have ht₂ := wholeDegrees_ofInt (d := max b.table.hys[j].toInt (-2147483)) (by omega) (by omega)
  obtain ⟨hv₁, htable⟩ := exec_keeps_loaded_table hv hexec₁
  have hset : b₁.mask[j] = true := by
    rw [exec_eval_mask hv hexec₁, ht₁]
    exact Table.newMask_bit_of_thr_le _ (le_max_left _ _)
  rw [exec_eval_mask hv₁ hexec₂, htable, ht₂]
  constructor
  · exact Table.newMask_bit_iff.mpr (.inr ⟨Table.falling_iff.mpr (le_max_left _ _), hset⟩)
  · exact hvalid.newMask_bit_of_lt_hys _ (max_lt hhys hhysMin)

/-- Settles O42: the latch rule is monotone, and so is the count. -/
theorem newMaskIsMonotone : Obligations.NewMaskIsMonotone :=
  fun _ _ _ _ _ _ ht hold => ⟨Table.newMask_mono ht hold, popcount_mono (Table.newMask_mono ht hold)⟩

/-- Settles O46: from the empty mask the rising bands are set, and they are the first `a(t)`. -/
theorem closedFormFromTheEmptyMask : Obligations.ClosedFormFromTheEmptyMask := by
  intro n arg b b' e hv hvalid hzero hexec hr
  obtain ⟨-, hmask, rfl⟩ := exec_eval_completed hexec hr
  rw [hzero] at hmask
  have hprefix := hmask.trans hvalid.newMask_zero
  refine ⟨fun i => hmask ▸ Table.newMask_zero_bit, hprefix, ?_⟩
  rw [hprefix, Table.evaluation_tier_prefixMask _ _ (b.table.countRising_le _)]

/-- Settles O43: from the empty mask the tier is `a(t)`, which a higher temperature does not lower. -/
theorem dutyIsMonotoneUnderSpdMono : Obligations.DutyIsMonotoneUnderSpdMono := by
  intro n a₁ a₂ b b₁ b₂ e₁ e₂ hv hvalid hzero hlt hexec₁ hr₁ hexec₂ hr₂
  obtain ⟨-, -, htier₁⟩ := closedFormFromTheEmptyMask n a₁ b b₁ e₁ hv hvalid hzero hexec₁ hr₁
  obtain ⟨-, -, htier₂⟩ := closedFormFromTheEmptyMask n a₂ b b₂ e₂ hv hvalid hzero hexec₂ hr₂
  have htier : e₁.tier.toNat ≤ e₂.tier.toNat := by
    rw [htier₁, htier₂]
    exact Table.countRising_mono (wholeDegrees_mono hlt.le)
  refine ⟨htier, fun hspd => ?_⟩
  obtain ⟨-, -, rfl⟩ := exec_eval_completed hexec₁ hr₁
  obtain ⟨-, -, rfl⟩ := exec_eval_completed hexec₂ hr₂
  rw [Table.evaluation_tier, Table.evaluation_tier] at htier
  rw [hvalid.evaluation_duty, hvalid.evaluation_duty]
  exact hspd.duty_mono htier

/-- Settles O47: the new mask is the clamped prefix, and its length is the tier. -/
theorem closedFormUnderNesting : Obligations.ClosedFormUnderNesting := by
  intro n arg b b' e k hv hvalid hmono hk hprefix hexec hr
  obtain ⟨-, hmask, rfl⟩ := exec_eval_completed hexec hr
  rw [hprefix, hvalid.newMask_prefixMask hmono] at hmask
  refine ⟨hvalid.countRising_le_countFalling, hmask, ?_⟩
  have hrising := b.table.countRising_le (wholeDegrees arg)
  rw [hmask, Table.evaluation_tier_prefixMask _ _ (by omega)]

/-- Settles O48: a band without a window shows whether it is rising, and if no band has one the rising
bands are the first `a(t)`. -/
theorem bandsWithoutAWindow : Obligations.BandsWithoutAWindow := by
  intro n arg b b' e hv hvalid hexec hr
  obtain ⟨-, hmask, rfl⟩ := exec_eval_completed hexec hr
  constructor
  · intro i hi
    rw [hmask, Table.newMask_bit_of_hys_eq_thr _ hi]
  · intro hwindow
    rw [hmask, hvalid.newMask_of_hys_eq_thr hwindow,
      Table.evaluation_tier_prefixMask _ _ (b.table.countRising_le _)]

/-- Settles O45: the two extreme masks are prefix masks, of lengths 0 and `n`, and the extreme arguments
evaluate at -2147483 and 2147483, so a band that yields to one of them has its threshold on that side. -/
theorem tiersSaturate : Obligations.TiersSaturate := by
  intro n arg b b' e last hlast hv hvalid hexec hr
  obtain ⟨-, hmask, rfl⟩ := exec_eval_completed hexec hr
  have hbottom : (∀ i : Fin n, wholeDegrees arg < sint b.table.hys[i]) → b'.mask = 0 ∧
      (b.table.evaluation (Decoder.tier b.params.decoder b'.mask)).tier.toNat = 0 := by
    intro ht
    have hzero : b'.mask = 0 := hmask.trans (hvalid.newMask_eq_zero ht)
    refine ⟨hzero, ?_⟩
    rw [hzero, ← prefixMask_zero, Table.evaluation_tier_prefixMask _ _ (Nat.zero_le n)]
  have htop : wholeDegrees arg ≥ sint b.table.thr[last] → b'.mask = BitVec.allOnes n ∧
      (b.table.evaluation (Decoder.tier b.params.decoder b'.mask)).tier.toNat = n := by
    intro ht
    have hones : b'.mask = BitVec.allOnes n := hmask.trans (hvalid.newMask_eq_allOnes hlast ht)
    refine ⟨hones, ?_⟩
    rw [hones, ← prefixMask_bands, Table.evaluation_tier_prefixMask _ _ le_rfl]
  refine ⟨hbottom, htop, fun harg hhys => ?_, fun harg hthr => ?_,
    fun harg hdecoder hones htier => ?_, fun harg hdecoder hzero htier => ?_⟩
  · exact (hbottom fun i => (wholeDegrees_of_least harg).symm ▸ hhys i).2
  · exact (htop ((wholeDegrees_of_greatest harg).symm ▸ hthr)).2
  · have hcleared := (tierRange n arg b b' _ hdecoder hexec hr).2.1.mp htier
    rw [hmask, wholeDegrees_of_least harg, hones] at hcleared
    exact Table.lt_hys_of_newMask_allOnes_eq_zero hcleared
  · have hfilled := (tierRange n arg b b' _ hdecoder hexec hr).2.2.mp htier
    rw [hmask, wholeDegrees_of_greatest harg, hzero] at hfilled
    exact Table.thr_le_of_newMask_zero_eq_allOnes hfilled last

/-- Settles O44: the mask is a fixpoint of every EVAL of the sequence (`newMask_hold`), so all answer its
length; the two clauses in millidegrees are bounds on the quotient. -/
theorem noChatter : Obligations.NoChatter := by
  refine ⟨fun n b b' k args bus rs hv hvalid hmask hlower hargs hrun => ?_, fun T h r hr hlow hhigh => ?_,
    fun T r hr hlow hhigh => ?_⟩
  · have hfix : ∀ a ∈ args, b.table.newMask (wholeDegrees a) b.mask = b.mask := by
      intro a ha
      rw [hmask, hvalid.newMask_hold hlower (hargs a ha).1 (hargs a ha).2]
    obtain ⟨hkeep, rfl⟩ := runMoves_eval_fixpoint hv hfix hrun
    refine ⟨hkeep.trans hmask, List.length_replicate, fun r hr => ⟨_, List.eq_of_mem_replicate hr, ?_⟩⟩
    rw [hmask, Table.evaluation_tier_prefixMask _ _ k.isLt]
  · have hbounds := tdiv_bounds T
    omega
  · have hbounds := tdiv_bounds T
    omega

end Sys2Proof.Machine
end

section
/-! SUPPORT. What a refused command has done and leaves for the next one, the statuses of LDCFG and EVAL, what
a command can do to the mode, a run that begins with a reset mark, and a step of one instance of several. -/

namespace Sys2Proof.Machine

variable {n : Nat} {b b' : Block n}

/-- An EVAL that does not answer OK is refused with the status it answers (R105). -/
theorem Block.evaluate_of_not_ok {s : Block n} {arg : Word} {r : Response}
    (hr : (s.evaluate arg).response = some r) (hne : r.status ≠ .ok) :
    s.evaluate arg = s.refuse r.status := by
  cases hv : s.cfgValid
  · rw [Block.evaluate_unconfigured hv] at hr ⊢; cases hr; rfl
  · rw [Block.evaluate_configured hv] at hr; cases hr; exact absurd rfl hne

/-- A command that does not answer OK has refused with the status it answers, and done nothing else (R105,
R113). -/
theorem exec_of_not_ok {i : Instr} {r : Response} (h : exec i (.of b) = .next (.of b'))
    (hr : b'.response = some r) (hne : r.status ≠ .ok) : b' = b.refuse r.status := by
  cases i with
  | nop a => rw [exec_nop] at h; cases h; cases hr; exact absurd rfl hne
  | init a => rw [exec_init] at h; cases h; cases hr; exact absurd rfl hne
  | ldcfg a => rw [exec_ldcfg] at h; cases h; exact Block.loadConfig_of_not_ok hr hne
  | eval a => rw [exec_eval] at h; cases h; exact Block.evaluate_of_not_ok hr hne

/-- EVAL after a refusal does what it would have done without it (R113). -/
theorem Block.evaluate_refuse (s : Block n) (st : Status) (arg : Word) :
    (s.refuse st).evaluate arg = s.evaluate arg := by
  obtain hv | hv := Bool.eq_false_or_eq_true s.cfgValid
  · rw [Block.evaluate_configured hv, Block.evaluate_configured (s := s.refuse st) hv]; rfl
  · rw [Block.evaluate_unconfigured hv, Block.evaluate_unconfigured (s := s.refuse st) hv]; rfl

/-- Every command after a refusal does what it would have done without it (R113). -/
theorem exec_refuse (i : Instr) (b : Block n) (st : Status) :
    exec i (.of (b.refuse st)) = exec i (.of b) := by
  cases i with
  | nop a => rfl
  | init a => rfl
  | ldcfg a => rw [exec_ldcfg, exec_ldcfg, Block.loadConfig_refuse]
  | eval a => rw [exec_eval, exec_eval, Block.evaluate_refuse]

/-- The statuses EVAL can answer (R107). -/
theorem Block.evaluate_status (s : Block n) (arg : Word) :
    ∃ r, (s.evaluate arg).response = some r ∧ (r.status = .ok ∨ r.status = .notConfigured) := by
  cases hv : s.cfgValid
  · exact ⟨_, congrArg Block.response (Block.evaluate_unconfigured hv arg), .inr rfl⟩
  · exact ⟨_, congrArg Block.response (Block.evaluate_configured hv arg), .inl rfl⟩

/-- The statuses LDCFG can answer (R107). -/
theorem Block.loadConfig_status (s : Block n) :
    ∃ r, s.loadConfig.response = some r ∧ (r.status = .ok ∨ r.status = .locked ∨
      r.status = .invalidLength ∨ r.status = .nonMonotonic ∨ r.status = .invalidHysteresis ∨
      r.status = .invalidSpeed) := by
  obtain ⟨-, e⟩ | ⟨-, st, herr, e⟩ | ⟨-, -, e⟩ := s.loadConfig_cases
  · exact ⟨_, congrArg Block.response e, .inr (.inl rfl)⟩
  · exact ⟨_, congrArg Block.response e, .inr (.inr (Bus.configError_eq_some herr))⟩
  · exact ⟨_, congrArg Block.response e, .inl rfl⟩

/-- An LDCFG that answers OK has committed the table of its bus, from mode UNCONFIGURED (R55, R64). -/
theorem Block.loadConfig_of_ok {s : Block n} {r : Response} (hr : s.loadConfig.response = some r)
    (hok : r.status = .ok) : s.cfgValid = false ∧
      s.loadConfig = (s.commit (s.bus.toTable s.params.cfgDecode)).respondOk := by
  obtain ⟨-, e⟩ | ⟨-, st, herr, e⟩ | ⟨hv, -, e⟩ := s.loadConfig_cases
  · rw [e] at hr; cases hr; cases hok
  · rw [e] at hr; cases hr; cases hok
    simpa using Bus.configError_eq_some herr
  · exact ⟨hv, e⟩

/-- LDCFG in mode UNCONFIGURED on a bus that passes every check, as a whole step (R64). -/
theorem exec_ldcfg_passing (hv : b.cfgValid = false) (hpass : b.bus.configError b.params.cfgDecode = none)
    (a : BitVec 32) : exec (.ldcfg a) (.of b) =
      .next (.of (b.commit (b.bus.toTable b.params.cfgDecode)).respondOk) := by
  rw [exec_ldcfg, Block.loadConfig_passing hv hpass]

theorem State.mode_eq_configured_iff : (State.of b).mode = .configured ↔ b.cfgValid = true := by
  simp [State.mode]

theorem State.mode_eq_unconfigured_iff : (State.of b).mode = .unconfigured ↔ b.cfgValid = false := by
  simp [State.mode]

/-- A command leaves the mode, or it is an LDCFG that answers OK and enters CONFIGURED from UNCONFIGURED
(R119). -/
theorem exec_mode_cases {i : Instr} (h : exec i (.of b) = .next (.of b')) :
    (State.of b').mode = (State.of b).mode ∨
    ((State.of b).mode = .unconfigured ∧ (State.of b').mode = .configured ∧
      b'.response = some { status := .ok, result := none } ∧ ∃ a, i = .ldcfg a) := by
  obtain ⟨hkeep, -⟩ | ⟨hv, hpass, hv', -⟩ := exec_table_cases h
  · exact .inl (by simp only [State.mode, hkeep])
  · obtain ⟨a, rfl, -⟩ := exec_loads hv hv' h
    rw [exec_ldcfg_passing hv hpass] at h
    cases h
    exact .inr ⟨State.mode_eq_unconfigured_iff.mpr hv, rfl, rfl, a, rfl⟩

/-- A step of an instance whose next move is a reset mark (R112). -/
theorem step_resetMark {rest : List (HostMove n)} (h : b.host = .reset :: rest) :
    step (.of b) = .next (.of (b.applyReset rest)) := by
  have hstep := step_reset b rest
  rwa [withHost_eq h] at hstep

/-- A run that begins with a reset mark goes on from the reset instance, with no response to the mark
(R112). -/
theorem runMoves_reset {ms : List (HostMove n)} {rs : List Response} {u : State}
    (hrest : runMoves ms (b.applyReset ms) = .next (rs, u)) :
    runMoves (.reset :: ms) b = .next (rs, u) :=
  runMoves_cons (step_reset b ms) hrest

/-- A step of instance `j` that answers is its own step, with the state it leaves in its place (R122). -/
theorem Instances.stepAt_cases {sys sys' : Instances} {j : Nat} {s : State} (hs : sys[j]? = some s)
    (h : Instances.stepAt sys j = .next sys') : ∃ t, step s = .next t ∧ sys' = sys.set j t := by
  rw [Instances.stepAt, hs] at h
  cases hstep : step s with
  | next t => simp only [hstep] at h; cases h; exact ⟨t, rfl, rfl⟩
  | fault f => simp only [hstep] at h; cases h
  | refused r => simp only [hstep] at h; cases h

end Sys2Proof.Machine
end

section
/-! PROOFS. The statements of 60_exceptions.md. -/

namespace Sys2Proof.Machine

open Sys2Proof.Laws.Encoding (decode_encode)

/-- Settles O22: the reset mark leaves mode UNCONFIGURED and the parameters, so the LDCFG commits. -/
theorem resetAllowsReconfiguration : Obligations.ResetAllowsReconfiguration := by
  intro n b bus hpass
  have hload := exec_ldcfg_passing
    (b := { b.applyReset [HostMove.ofInstr (.ldcfg 0) bus] with bus := bus }) rfl hpass 0
  exact ⟨_, runMoves_reset (runMoves_command (decode_encode _) hload (runMoves_nil _)), rfl, rfl, rfl⟩

/-- Settles O49: a command that does not answer OK is `refuse`, and no command reads the response before
it. -/
theorem refusalsChangeNothing : Obligations.RefusalsChangeNothing := by
  rintro n i b b' ⟨st, result⟩ h hr hne
  obtain rfl := exec_of_not_ok h hr hne
  cases hr
  refine ⟨rfl, rfl, fun w bus rest => ?_⟩
  rw [step_command, step_command]
  exact exec_refuse (decode w) { b with host := rest, bus := bus } _

/-- Settles O50, command by command. -/
theorem statusesOfEachCommand : Obligations.StatusesOfEachCommand := by
  rintro i ⟨n, b⟩
  cases i with
  | nop a => exact ⟨_, _, exec_nop a b, rfl, rfl⟩
  | init a => exact ⟨_, _, exec_init a b, rfl, rfl⟩
  | ldcfg a =>
    obtain ⟨r, hr, hstatus⟩ := b.loadConfig_status
    exact ⟨_, r, exec_ldcfg a b, hr, hstatus⟩
  | eval a =>
    obtain ⟨r, hr, hstatus⟩ := b.evaluate_status a
    exact ⟨_, r, exec_eval a b, hr, hstatus⟩

/-- Settles O53: of the three kinds of step a wait leaves the mode, a command does what `exec_mode_cases` says,
and a reset mark clears `CFG_VALID`. -/
theorem modeTransitions : Obligations.ModeTransitions := by
  refine ⟨?_, ?_, ?_⟩
  · rintro ⟨n, b⟩ t h
    obtain ⟨-, rfl⟩ | ⟨w, bus, rest, hhost, hexec⟩ | ⟨rest, hhost, rfl⟩ := step_cases h
    · exact .inr (.inr rfl)
    · obtain ⟨b', rfl, -⟩ := exec_frame hexec
      obtain hkeep | ⟨hfrom, hto, hr, a, hi⟩ := exec_mode_cases hexec
      · exact .inr (.inr hkeep)
      · exact .inr (.inl ⟨hfrom, hto, hr, w, bus, rest, a, hhost, hi⟩)
    · exact .inl ⟨rest, hhost, rfl⟩
  · rintro ⟨n, b⟩ t rest hhost h
    rw [step_resetMark hhost] at h
    cases h
    rfl
  · rintro a ⟨n, b⟩ t h hr
    rw [exec_ldcfg] at h
    cases h
    obtain ⟨hv, e⟩ := Block.loadConfig_of_ok hr rfl
    exact ⟨State.mode_eq_unconfigured_iff.mpr hv, State.mode_eq_configured_iff.mpr (by simp [e])⟩

/-- Settles O58: the step writes position `j` of the list and no other. -/
theorem instancesAreIndependent : Obligations.InstancesAreIndependent := by
  intro sys sys' j s hs h
  obtain ⟨t, hstep, rfl⟩ := Instances.stepAt_cases hs h
  obtain ⟨hj, -⟩ := List.getElem?_eq_some_iff.mp hs
  exact ⟨List.length_set, fun k hk => List.getElem?_set_ne hk.symm, t, hstep, List.getElem?_set_self hj⟩

/-- Settles O7: a reset mark writes every field as power-on does, but for the four the statement names. -/
theorem resetMarkGivesTheResetState : Obligations.ResetMarkGivesTheResetState :=
  fun _ _ _ hhost => step_resetMark hhost

end Sys2Proof.Machine
end

section
/-! SUPPORT. A step with no move pending, and that every command and every allowed move is answered by a next
state, with one response to a command and none to a reset mark. -/

namespace Sys2Proof.Machine

variable {n : Nat}

/-- A step with no move pending (R125). -/
theorem step_wait {b : Block n} (h : b.host = []) : step (.of b) = .next (.of b.wait) := by
  simp only [step, h]

/-- Every command ends with a response from every state (R107, R138). -/
theorem exec_answers (i : Instr) (b : Block n) :
    ∃ (b' : Block n) (r : Response), exec i (.of b) = .next (.of b') ∧ b'.response = some r := by
  obtain ⟨t, r, hexec, hr, -⟩ := statusesOfEachCommand i (.of b)
  obtain ⟨b', rfl, -⟩ := exec_frame hexec
  exact ⟨b', r, hexec, hr⟩

/-- A step on a move that is no breach ends with a next state, and with one response if the move is a command,
else with none (R112, R138). -/
theorem step_answers {m : HostMove n} (hm : m.allowed = true) (ms : List (HostMove n)) (b : Block n) :
    ∃ b' : Block n, step (.of { b with host := m :: ms }) = .next (.of b') ∧
      b'.response.toList.length = if m.isCommand then 1 else 0 := by
  cases m with
  | command w bus =>
    obtain ⟨b', r, hexec, hr⟩ := exec_answers (decode w) { b with host := ms, bus := bus }
    exact ⟨b', hexec, congrArg (·.toList.length) hr⟩
  | reset => exact ⟨b.applyReset ms, step_reset b ms, rfl⟩
  | breach _ => cases hm

end Sys2Proof.Machine
end

section
/-! PROOFS. The statements of 70_reset_and_hazards.md. -/

namespace Sys2Proof.Machine

/-- Settles O56, by induction on the stream: its first move is answered (`step_answers`), and the run goes on
with the rest from the instance that step left. -/
theorem runsNeverStop : Obligations.RunsNeverStop := by
  intro n ms b hms
  induction ms generalizing b with
  | nil => exact ⟨_, _, runMoves_nil b, rfl⟩
  | cons m ms ih =>
    obtain ⟨hm, hms⟩ := List.forall_mem_cons.mp hms
    obtain ⟨c, hstep, hone⟩ := step_answers hm ms b
    obtain ⟨rs, b', hrest, hlen⟩ := ih c hms
    refine ⟨_, b', runMoves_cons hstep hrest, ?_⟩
    rw [← List.countP_eq_length_filter] at hlen ⊢
    rw [List.length_append, hone, hlen, List.countP_cons, Nat.add_comm]

/-- Settles O9: the step is a wait, which writes the response port alone. -/
theorem withoutACommandTheBlockWaits : Obligations.WithoutACommandTheBlockWaits :=
  fun _ _ => step_wait

end Sys2Proof.Machine
end

section
/-! PROOFS. The statement of 93_implementation_defined.md. -/

namespace Sys2Proof.Machine

variable {n : Nat}

/-- A step on a breach by the host (93 U10, the model's choice, log entry 10). -/
theorem step_breach {b : Block n} {x : Breach} {rest : List (HostMove n)} (h : b.host = .breach x :: rest) :
    step (.of b) = .fault (.hostBreach x) := by
  simp only [step, h]

/-- Settles O10: the host's next move is the breach, and a step on it faults under its name (`step_breach`). -/
theorem hostBreachFaults : Obligations.HostBreachFaults :=
  fun _ _ _ _ hhost => step_breach hhost

end Sys2Proof.Machine
end
